-- ==== Sys2Proof/Word.lean ====
section
/-! DEFINITION. Word.lean: the widths the spec fixes once (00_scope.md R6, R13, R14): a byte, a 16-bit word (an
instruction word, the address register), the 12-bit address operand, and the 4-bit register index. -/

namespace Sys2Proof

/-- 8 bits: a general register, a memory byte, the immediate `kk` (R6, R70). -/
abbrev Byte := BitVec 8

/-- 16 bits: an instruction word and the address register `I` (R6, R27). -/
abbrev Word := BitVec 16

/-- The 12-bit address operand `nnn` (R70). -/
abbrev Addr12 := BitVec 12

/-- The index of a general register, 0 to 15 (R20); also a logical key value (R205) and a sprite height (R73). -/
abbrev Index := Fin 16

end Sys2Proof
end

