-- ==== Sys2Proof/Config.lean ====
section
/-! DEFINITION. Config.lean: what the spec fixes for the machine (00_scope.md R6), the parameters it lets a machine be
constructed with (R7 to R10) and the one free value (R11, the random byte). -/

namespace Sys2Proof

namespace Config

/-- `MEM_SIZE`, bytes of memory (R6, R32). -/
def memSize : Nat := 4096

/-- Columns of the display (R6, R33). -/
def columns : Nat := 64

/-- Rows of the display (R6, R33). -/
def rows : Nat := 32

/-- The end of the reserved area 0x000–0x1FF (20_memory.md R56). -/
def reservedEnd : Nat := 0x200

/-- The number of font bytes: 16 glyphs of 5 (R6). -/
def fontSize : Nat := 80

/-- FREE VALUE (log 3): the `n`-th random byte a run consumes. 00_scope.md R11 makes the random byte "a free input of
the cycle that executes it (a draw), not a function of state"; it has no body, so nothing can be proved of its value. -/
opaque randomByte : Nat → Byte

end Config

/-- What opcode 0x0000 reports to the host (R10). -/
inductive HaltMode where
  | headless
  | interactive
deriving DecidableEq, Repr

/-- The parameters of a machine (R7 to R10), given to `construct` (70_reset_and_hazards.md R250) and never changed. -/
structure Params where
  /-- `PROGRAM_BASE`: load and entry address (R7, D2). -/
  programBase : Nat
  /-- `FONT_BASE`: address of the first font byte (R8, D3). -/
  fontBase    : Nat
  /-- `FONT_DATA`: the 80 font bytes, glyph `k` at bytes `5*k` to `5*k + 4` (R9, D4). -/
  fontData    : Vector Byte 80
  /-- `HALT_MODE` (R10, D16). -/
  haltMode    : HaltMode
deriving DecidableEq, Repr

namespace Config

/-- Glyphs 0 to 3 of the default font (20_memory.md R55). -/
def glyphs0to3 : Vector Byte 20 :=
  #v[0xF0, 0x90, 0x90, 0x90, 0xF0,  0x20, 0x60, 0x20, 0x20, 0x70,
     0xF0, 0x10, 0xF0, 0x80, 0xF0,  0xF0, 0x10, 0xF0, 0x10, 0xF0]

/-- Glyphs 4 to 7 of the default font (R55). -/
def glyphs4to7 : Vector Byte 20 :=
  #v[0x90, 0x90, 0xF0, 0x10, 0x10,  0xF0, 0x80, 0xF0, 0x10, 0xF0,
     0xF0, 0x80, 0xF0, 0x90, 0xF0,  0xF0, 0x10, 0x20, 0x40, 0x40]

/-- Glyphs 8 to B of the default font (R55). -/
def glyphs8toB : Vector Byte 20 :=
  #v[0xF0, 0x90, 0xF0, 0x90, 0xF0,  0xF0, 0x90, 0xF0, 0x10, 0xF0,
     0xF0, 0x90, 0xF0, 0x90, 0x90,  0xE0, 0x90, 0xE0, 0x90, 0xE0]

/-- Glyphs C to F of the default font (R55). -/
def glyphsCtoF : Vector Byte 20 :=
  #v[0xF0, 0x80, 0x80, 0x80, 0xF0,  0xE0, 0x90, 0x90, 0x90, 0xE0,
     0xF0, 0x80, 0xF0, 0x80, 0xF0,  0xF0, 0x80, 0xF0, 0x80, 0x80]

/-- The default `FONT_DATA` (20_memory.md R55; from general knowledge, as the spec says; log 7). -/
def fontDefault : Vector Byte 80 :=
  glyphs0to3 ++ glyphs4to7 ++ glyphs8toB ++ glyphsCtoF

/-- The default parameters of the table at the end of 00_scope.md section 4. -/
def defaults : Params :=
  { programBase := 0x200, fontBase := 0x000, fontData := fontDefault, haltMode := .headless }

end Config

end Sys2Proof
end

