-- ==== Sys2Proof/Syntax.lean ====
section
/-! DEFINITION. Syntax.lean: the 30 instructions of the opcode map (30_encoding.md R74), one constructor per row, in the
table's order. A field's type is exactly the width of its encoding field (R70): `x`, `y`, `d` 4 bits, `nnn` 12, `kk` 8. -/

namespace Sys2Proof

/-- One constructor per row of spec/opcode_table.json (R74). -/
inductive Instr where
  /-- `0000` HALT (R120). -/
  | halt
  /-- `00E0` CLS (R180). -/
  | cls
  /-- `00EE` RET (R121). -/
  | ret
  /-- `1nnn` JP nnn (R122). -/
  | jpNnn (nnn : Addr12)
  /-- `2nnn` CALL nnn (R123). -/
  | callNnn (nnn : Addr12)
  /-- `3xkk` SE Vx, kk (R124). -/
  | seVxKk (x : Index) (kk : Byte)
  /-- `4xkk` SNE Vx, kk (R125). -/
  | sneVxKk (x : Index) (kk : Byte)
  /-- `5xy0` SE Vx, Vy (R126). -/
  | seVxVy (x y : Index)
  /-- `6xkk` LD Vx, kk (R140). -/
  | ldVxKk (x : Index) (kk : Byte)
  /-- `7xkk` ADD Vx, kk (R141). -/
  | addVxKk (x : Index) (kk : Byte)
  /-- `8xy0` LD Vx, Vy (R142). -/
  | ldVxVy (x y : Index)
  /-- `8xy1` OR Vx, Vy (R143). -/
  | orVxVy (x y : Index)
  /-- `8xy2` AND Vx, Vy (R144). -/
  | andVxVy (x y : Index)
  /-- `8xy3` XOR Vx, Vy (R145). -/
  | xorVxVy (x y : Index)
  /-- `8xy4` ADD Vx, Vy (R146). -/
  | addVxVy (x y : Index)
  /-- `8xy5` SUB Vx, Vy (R148). -/
  | subVxVy (x y : Index)
  /-- `8xy6` SHR Vx (R149); `y` is decoded and ignored (R81). -/
  | shrVx (x y : Index)
  /-- `8xy7` SUBN Vx, Vy (R150). -/
  | subnVxVy (x y : Index)
  /-- `8xyE` SHL Vx (R151); `y` is decoded and ignored (R81). -/
  | shlVx (x y : Index)
  /-- `9xy0` SNE Vx, Vy (R127). -/
  | sneVxVy (x y : Index)
  /-- `Annn` LD I, nnn (R160). -/
  | ldINnn (nnn : Addr12)
  /-- `Bnnn` JP V0, nnn (R128). -/
  | jpV0Nnn (nnn : Addr12)
  /-- `Cxkk` RND Vx, kk (R152). -/
  | rndVxKk (x : Index) (kk : Byte)
  /-- `Dxyd` DRW Vx, Vy, d (R182). -/
  | drwVxVyD (x y d : Index)
  /-- `Fx0A` LD Vx, K (R200). -/
  | ldVxK (x : Index)
  /-- `Fx1E` ADD I, Vx (R161). -/
  | addIVx (x : Index)
  /-- `Fx29` LD F, Vx (R162). -/
  | ldFVx (x : Index)
  /-- `Fx33` LD B, Vx (R163). -/
  | ldBVx (x : Index)
  /-- `Fx55` LD [I], Vx (R166). -/
  | ldMemVx (x : Index)
  /-- `Fx65` LD Vx, [I] (R167). -/
  | ldVxMem (x : Index)
deriving DecidableEq, Repr

end Sys2Proof
end

