-- ==== Sys2Proof/WellFormed.lean ====
section
/-! DEFINITION. WellFormed.lean: the checks on what a machine is given: an instruction's operands fit their encoding
fields (30_encoding.md R70), the parameters are in the range the spec allows (00_scope.md R7, R8), and a program image
fits in memory (70_reset_and_hazards.md R257). -/

namespace Sys2Proof

/-- A value fits a field of `width` bits. -/
def fitsField (value width : Nat) : Bool := decide (value < 2 ^ width)

/-- The operands of an instruction, each with the width of its encoding field (R70). -/
def Instr.operands : Instr → List (Nat × Nat)
  | .halt | .cls | .ret => []
  | .jpNnn nnn | .callNnn nnn | .ldINnn nnn | .jpV0Nnn nnn => [(nnn.toNat, 12)]
  | .seVxKk x kk | .sneVxKk x kk | .ldVxKk x kk | .addVxKk x kk | .rndVxKk x kk => [(x.val, 4), (kk.toNat, 8)]
  | .seVxVy x y | .ldVxVy x y | .orVxVy x y | .andVxVy x y | .xorVxVy x y | .addVxVy x y | .subVxVy x y
  | .shrVx x y | .subnVxVy x y | .shlVx x y | .sneVxVy x y => [(x.val, 4), (y.val, 4)]
  | .drwVxVyD x y d => [(x.val, 4), (y.val, 4), (d.val, 4)]
  | .ldVxK x | .addIVx x | .ldFVx x | .ldBVx x | .ldMemVx x | .ldVxMem x => [(x.val, 4)]

/-- Every operand fits its field. The field types of `Instr` have exactly these widths, so this holds of every term
(the family `Fits` of Laws/PerInstr.lean): no instruction is shut out by it. -/
def Instr.wellFormed (i : Instr) : Bool := i.operands.all fun o => fitsField o.1 o.2

/-- The parameters are in range: `0x200 <= PROGRAM_BASE <= 4094` (R7), and the font lies in the reserved area
0x000–0x1FF (R8; log 7). -/
def Params.wellFormed (p : Params) : Bool :=
  decide (Config.reservedEnd ≤ p.programBase) && decide (p.programBase ≤ 4094) &&
    decide (p.fontBase + Config.fontSize ≤ Config.reservedEnd)

/-- A program image fits between `PROGRAM_BASE` and the end of memory (R257). -/
def Params.imageFits (p : Params) (image : List Byte) : Bool :=
  decide (p.programBase + image.length ≤ Config.memSize)

end Sys2Proof
end

