-- ==== Sys2Proof/Decode.lean ====
section
/-! DEFINITION. Decode.lean: fields (30_encoding.md R71), the opcode map (R74, R75), rejection by name (R77), the
encoder, and the host's table-word decoder. -/

namespace Sys2Proof

/-- Big-endian joining of two bytes: the byte at the lower address is bits 15–8 (20_memory.md R53). -/
def joinBytes (hi lo : Byte) : Word := hi ++ lo

/-- Bits 15–8 of a word: the byte stored at the lower address (R53). -/
def highByte (w : Word) : Byte := w.extractLsb' 8 8

/-- Bits 7–0 of a word: the byte stored at the higher address (R53). -/
def lowByte (w : Word) : Byte := w.extractLsb' 0 8

/-- The fields every word decodes to, "pure, total, no failure modes" (R72). -/
structure Fields where
  c   : BitVec 4
  x   : BitVec 4
  y   : BitVec 4
  d   : BitVec 4
  nnn : Addr12
  kk  : Byte
deriving DecidableEq, Repr

/-- Field extraction (R71). -/
def fieldsOf (w : Word) : Fields :=
  { c := w.extractLsb' 12 4, x := w.extractLsb' 8 4, y := w.extractLsb' 4 4, d := w.extractLsb' 0 4,
    nnn := w.extractLsb' 0 12, kk := w.extractLsb' 0 8 }

/-- Why a word or a list of bytes is no instruction. -/
inductive DecodeReject where
  /-- Fewer than two bytes. -/
  | truncated
  /-- A word that matches no row of the opcode map (R77). -/
  | unimplementedOpcode (w : Word)
deriving DecidableEq, Repr

/-- Class 0: the whole word selects (R75). -/
def decodeClass0 (w : Word) : Option Instr :=
  if w = 0x0000#16 then some .halt
  else if w = 0x00E0#16 then some .cls
  else if w = 0x00EE#16 then some .ret
  else none

/-- Class 8: `d` selects (R75). -/
def decodeClass8 (x y : Index) (d : Nat) : Option Instr :=
  match d with
  | 0x0 => some (.ldVxVy x y)
  | 0x1 => some (.orVxVy x y)
  | 0x2 => some (.andVxVy x y)
  | 0x3 => some (.xorVxVy x y)
  | 0x4 => some (.addVxVy x y)
  | 0x5 => some (.subVxVy x y)
  | 0x6 => some (.shrVx x y)
  | 0x7 => some (.subnVxVy x y)
  | 0xE => some (.shlVx x y)
  | _   => none

/-- Class F: `kk` selects (R75). -/
def decodeClassF (x : Index) (kk : Byte) : Option Instr :=
  if kk = 0x0A#8 then some (.ldVxK x)
  else if kk = 0x1E#8 then some (.addIVx x)
  else if kk = 0x29#8 then some (.ldFVx x)
  else if kk = 0x33#8 then some (.ldBVx x)
  else if kk = 0x55#8 then some (.ldMemVx x)
  else if kk = 0x65#8 then some (.ldVxMem x)
  else none

/-- The opcode map by class nibble (R75); `none` for an unimplemented word (R77). -/
def decodeMap (w : Word) : Option Instr :=
  let f := fieldsOf w
  let x := f.x.toFin
  let y := f.y.toFin
  match f.c.toNat with
  | 0x0 => decodeClass0 w
  | 0x1 => some (.jpNnn f.nnn)
  | 0x2 => some (.callNnn f.nnn)
  | 0x3 => some (.seVxKk x f.kk)
  | 0x4 => some (.sneVxKk x f.kk)
  | 0x5 => if f.d = 0x0#4 then some (.seVxVy x y) else none
  | 0x6 => some (.ldVxKk x f.kk)
  | 0x7 => some (.addVxKk x f.kk)
  | 0x8 => decodeClass8 x y f.d.toNat
  | 0x9 => if f.d = 0x0#4 then some (.sneVxVy x y) else none
  | 0xA => some (.ldINnn f.nnn)
  | 0xB => some (.jpV0Nnn f.nnn)
  | 0xC => some (.rndVxKk x f.kk)
  | 0xD => some (.drwVxVyD x y f.d.toFin)
  | 0xE => none
  | 0xF => decodeClassF x f.kk
  | _   => none

/-- The instruction a word is, or the rejection by name (R77). -/
def decodeWord (w : Word) : Except DecodeReject Instr :=
  match decodeMap w with
  | some i => .ok i
  | none   => .error (.unimplementedOpcode w)

/-- Decoding of bytes as memory holds them: two bytes, big-endian (R53, R70), and the rest. -/
def decodeBytes : List Byte → Except DecodeReject (Instr × List Byte)
  | hi :: lo :: rest =>
    match decodeWord (joinBytes hi lo) with
    | .ok i    => .ok (i, rest)
    | .error r => .error r
  | _ => .error .truncated

/-- A 4-bit operand as the bits of its field (R70). -/
def nibble (n : Index) : BitVec 4 := BitVec.ofFin n

/-- Class nibble, register index, immediate: layout `xkk` (R70). -/
def encodeXkk (c : BitVec 4) (x : Index) (kk : Byte) : Word := c ++ nibble x ++ kk

/-- Class nibble and address operand: layout `nnn` (R70). -/
def encodeNnn (c : BitVec 4) (nnn : Addr12) : Word := c ++ nnn

/-- Class nibble, two register indices, low nibble: layouts `xy` and `xyd` (R70). -/
def encodeXyd (c : BitVec 4) (x y : Index) (d : BitVec 4) : Word := c ++ nibble x ++ nibble y ++ d

/-- The word of an instruction, from the patterns of the opcode map (R74). -/
def encode : Instr → Word
  | .halt          => 0x0000#16
  | .cls           => 0x00E0#16
  | .ret           => 0x00EE#16
  | .jpNnn nnn     => encodeNnn 0x1#4 nnn
  | .callNnn nnn   => encodeNnn 0x2#4 nnn
  | .seVxKk x kk   => encodeXkk 0x3#4 x kk
  | .sneVxKk x kk  => encodeXkk 0x4#4 x kk
  | .seVxVy x y    => encodeXyd 0x5#4 x y 0x0#4
  | .ldVxKk x kk   => encodeXkk 0x6#4 x kk
  | .addVxKk x kk  => encodeXkk 0x7#4 x kk
  | .ldVxVy x y    => encodeXyd 0x8#4 x y 0x0#4
  | .orVxVy x y    => encodeXyd 0x8#4 x y 0x1#4
  | .andVxVy x y   => encodeXyd 0x8#4 x y 0x2#4
  | .xorVxVy x y   => encodeXyd 0x8#4 x y 0x3#4
  | .addVxVy x y   => encodeXyd 0x8#4 x y 0x4#4
  | .subVxVy x y   => encodeXyd 0x8#4 x y 0x5#4
  | .shrVx x y     => encodeXyd 0x8#4 x y 0x6#4
  | .subnVxVy x y  => encodeXyd 0x8#4 x y 0x7#4
  | .shlVx x y     => encodeXyd 0x8#4 x y 0xE#4
  | .sneVxVy x y   => encodeXyd 0x9#4 x y 0x0#4
  | .ldINnn nnn    => encodeNnn 0xA#4 nnn
  | .jpV0Nnn nnn   => encodeNnn 0xB#4 nnn
  | .rndVxKk x kk  => encodeXkk 0xC#4 x kk
  | .drwVxVyD x y d => encodeXyd 0xD#4 x y (nibble d)
  | .ldVxK x       => encodeXkk 0xF#4 x 0x0A#8
  | .addIVx x      => encodeXkk 0xF#4 x 0x1E#8
  | .ldFVx x       => encodeXkk 0xF#4 x 0x29#8
  | .ldBVx x       => encodeXkk 0xF#4 x 0x33#8
  | .ldMemVx x     => encodeXkk 0xF#4 x 0x55#8
  | .ldVxMem x     => encodeXkk 0xF#4 x 0x65#8

/-- The two bytes of an instruction as memory holds them (R53). -/
def encodeBytes (i : Instr) : List Byte := [highByte (encode i), lowByte (encode i)]

/-- One row of the opcode map: the fixed bits and their values (R74). -/
structure OpcodeRow where
  mask    : Word
  pattern : Word
deriving DecidableEq, Repr

/-- `w & mask == match` selects the row (R74). -/
def OpcodeRow.selects (r : OpcodeRow) (w : Word) : Bool := w &&& r.mask == r.pattern

/-- The rows of classes 0 to 7 (R74, rows 1 to 10). -/
def opcodeRows0to7 : List OpcodeRow :=
  [⟨0xFFFF, 0x0000⟩, ⟨0xFFFF, 0x00E0⟩, ⟨0xFFFF, 0x00EE⟩, ⟨0xF000, 0x1000⟩, ⟨0xF000, 0x2000⟩, ⟨0xF000, 0x3000⟩,
   ⟨0xF000, 0x4000⟩, ⟨0xF00F, 0x5000⟩, ⟨0xF000, 0x6000⟩, ⟨0xF000, 0x7000⟩]

/-- The rows of class 8 (R74, rows 11 to 19). -/
def opcodeRows8 : List OpcodeRow :=
  [⟨0xF00F, 0x8000⟩, ⟨0xF00F, 0x8001⟩, ⟨0xF00F, 0x8002⟩, ⟨0xF00F, 0x8003⟩, ⟨0xF00F, 0x8004⟩, ⟨0xF00F, 0x8005⟩,
   ⟨0xF00F, 0x8006⟩, ⟨0xF00F, 0x8007⟩, ⟨0xF00F, 0x800E⟩]

/-- The rows of classes 9 to F (R74, rows 20 to 30). -/
def opcodeRows9toF : List OpcodeRow :=
  [⟨0xF00F, 0x9000⟩, ⟨0xF000, 0xA000⟩, ⟨0xF000, 0xB000⟩, ⟨0xF000, 0xC000⟩, ⟨0xF000, 0xD000⟩, ⟨0xF0FF, 0xF00A⟩,
   ⟨0xF0FF, 0xF01E⟩, ⟨0xF0FF, 0xF029⟩, ⟨0xF0FF, 0xF033⟩, ⟨0xF0FF, 0xF055⟩, ⟨0xF0FF, 0xF065⟩]

/-- The opcode map's masks and matches, row by row (R74). -/
def opcodeRows : List OpcodeRow := opcodeRows0to7 ++ opcodeRows8 ++ opcodeRows9toF

/-- The row of the opcode map an instruction is an instance of (R74). -/
def Instr.row : Instr → OpcodeRow
  | .halt           => ⟨0xFFFF, 0x0000⟩
  | .cls            => ⟨0xFFFF, 0x00E0⟩
  | .ret            => ⟨0xFFFF, 0x00EE⟩
  | .jpNnn _        => ⟨0xF000, 0x1000⟩
  | .callNnn _      => ⟨0xF000, 0x2000⟩
  | .seVxKk _ _     => ⟨0xF000, 0x3000⟩
  | .sneVxKk _ _    => ⟨0xF000, 0x4000⟩
  | .seVxVy _ _     => ⟨0xF00F, 0x5000⟩
  | .ldVxKk _ _     => ⟨0xF000, 0x6000⟩
  | .addVxKk _ _    => ⟨0xF000, 0x7000⟩
  | .ldVxVy _ _     => ⟨0xF00F, 0x8000⟩
  | .orVxVy _ _     => ⟨0xF00F, 0x8001⟩
  | .andVxVy _ _    => ⟨0xF00F, 0x8002⟩
  | .xorVxVy _ _    => ⟨0xF00F, 0x8003⟩
  | .addVxVy _ _    => ⟨0xF00F, 0x8004⟩
  | .subVxVy _ _    => ⟨0xF00F, 0x8005⟩
  | .shrVx _ _      => ⟨0xF00F, 0x8006⟩
  | .subnVxVy _ _   => ⟨0xF00F, 0x8007⟩
  | .shlVx _ _      => ⟨0xF00F, 0x800E⟩
  | .sneVxVy _ _    => ⟨0xF00F, 0x9000⟩
  | .ldINnn _       => ⟨0xF000, 0xA000⟩
  | .jpV0Nnn _      => ⟨0xF000, 0xB000⟩
  | .rndVxKk _ _    => ⟨0xF000, 0xC000⟩
  | .drwVxVyD _ _ _ => ⟨0xF000, 0xD000⟩
  | .ldVxK _        => ⟨0xF0FF, 0xF00A⟩
  | .addIVx _       => ⟨0xF0FF, 0xF01E⟩
  | .ldFVx _        => ⟨0xF0FF, 0xF029⟩
  | .ldBVx _        => ⟨0xF0FF, 0xF033⟩
  | .ldMemVx _      => ⟨0xF0FF, 0xF055⟩
  | .ldVxMem _      => ⟨0xF0FF, 0xF065⟩

/-- The instruction the decoder reads from a word numbered as spec/opcode_table.json numbers it; `nbits` is 16 for
every row, and any bit above `nbits` is 0. The word goes through memory's bytes, as the machine's fetch does. -/
def decodeTableWord (nbits w : Nat) : Option Instr :=
  let word := BitVec.ofNat 16 (w % 2 ^ nbits)
  match decodeBytes [highByte word, lowByte word] with
  | .ok (i, _) => some i
  | .error _   => none

end Sys2Proof
end

