-- ==== Sys2Proof/Machine/State.lean ====
section
/-! DEFINITION. Machine/State.lean: the fault kinds, the run status, and the state as plain data (10_state.md); the state
right after reset (70_reset_and_hazards.md). -/

namespace Sys2Proof.Machine

/-- The fault kinds, exactly the spec's taxonomy (60_exceptions.md R220). Raising one is a NEXT state whose status is
`Faulted` (R223; log 1), so `step` never answers the outcome `fault`: the type serves the fault record. -/
inductive Fault where
  /-- Raised by `2nnn` with `SP >= 16` (R220 code 1). Safe: the spec's own fault. -/
  | stackOverflow
  /-- Raised by `00EE` with `SP = 0` (R220 code 2). Safe: the spec's own fault. -/
  | stackUnderflow
  /-- Raised by every checked write of `pc` to 4095 or more (R220 code 3, R24). Safe: the spec's own fault. -/
  | illegalJumpTarget
  /-- Raised by a memory access past address 4095 (R220 code 4, R52). Safe: the spec's own fault. -/
  | memoryOutOfBounds
  /-- Raised by an indexed register access with an index of 16 or more (R220 code 5, R22): asserted, never reached
  (R222). Safe: the spec's own fault. -/
  | registerIndexOutOfRange
  /-- Raised by `Fx29` with `V[x] > 15` (R220 code 6, R162). Safe: the spec's own fault (C1). -/
  | unrepresentableCharacter
  /-- Raised by the cycle for a word that matches no row of the opcode map (R220 code 7, R77). Safe: the spec's own. -/
  | unimplementedOpcode
deriving DecidableEq, Repr

/-- Reasons the model has no meaning for an instruction. -/
inductive Refusal where
  /-- Raised by `exec`'s arm of an instruction that has no meaning yet; no arm does. Safe: the run stops. -/
  | notModelled (mnemonic : String)
deriving DecidableEq, Repr

/-- The fault record `(kind, pc, opcode)` (60_exceptions.md R224); the opcode is absent only for the fetch fault of
40_cycle.md R109. -/
structure FaultRecord where
  kind   : Fault
  pc     : Nat
  opcode : Option Word
deriving DecidableEq, Repr

/-- The run status (10_state.md R35). -/
inductive Status where
  | running
  | waitingForKey (t : Index)
  | halted (mode : HaltMode)
  | stopped
  | faulted (record : FaultRecord)
deriving DecidableEq, Repr

/-- The arguments of the cycle in progress: `a`, `w` and `r` of 40_cycle.md R100. The model's own field (log 5):
`execute` and `raise` read it, and it is idle between cycles. -/
structure CycleArgs where
  addr   : Nat
  word   : Option Word
  random : Byte
deriving DecidableEq, Repr

/-- No cycle in progress. -/
def CycleArgs.idle : CycleArgs := { addr := 0, word := none, random := 0#8 }

/-- Memory as address and byte pairs in canonical form (`Memory.wf`, Machine/Ops.lean). -/
abbrev Memory := List Host.Cell

/-- The display `D[32][64]`: 32 rows of 64 boolean cells (R33); `true` is lit. -/
abbrev Display := Vector (Vector Bool 64) 32

/-- The state of the CORE, under the spec's own names (00_scope.md R15; 10_state.md). -/
structure State where
  /-- The general registers `V[0]` to `V[15]`; `V[15]` is `VF` (R20, R21). -/
  V      : Vector Byte 16
  /-- The address register (R27). -/
  I      : Word
  /-- The program counter, a natural number (R23). -/
  pc     : Nat
  /-- The call stack's slots (R28). -/
  S      : Vector Nat 16
  /-- The stack pointer: how many slots are occupied, 0 to 16 (R29). -/
  SP     : Fin 17
  /-- Memory `M[0]` to `M[4095]` (R32). -/
  mem    : Memory
  /-- The display buffer (R33). -/
  D      : Display
  /-- The display's dirty flag (R34). -/
  dirty  : Bool
  /-- The run status with the input-wait state (R35, R36). -/
  status : Status
  /-- The parameters the machine was constructed with (R250); constant (log 6). -/
  params : Params
  /-- The model's own: the cycle in progress (log 5). -/
  cyc    : CycleArgs
  /-- The model's own: how many random bytes `Cxkk` has consumed (log 3). -/
  draws  : Nat
deriving DecidableEq, Repr

/-- The state `construct` builds with parameters `p` and an empty image (R250 to R256): memory lists nothing, since
an unlisted address reads as the reset contents (`resetByte`, Machine/Ops.lean). -/
def State.initial (p : Params) : State :=
  { V := Vector.replicate 16 0#8
    I := 0#16
    pc := p.programBase
    S := Vector.replicate 16 0
    SP := 0
    mem := []
    D := Vector.replicate 32 (Vector.replicate 64 false)
    dirty := false
    status := .running
    params := p
    cyc := CycleArgs.idle
    draws := 0 }

/-- The machine right after reset: construction with the default parameters and an empty image (R250, R257; log 15). -/
def State.reset : State := State.initial Config.defaults

end Sys2Proof.Machine
end

