-- ==== Sys2Proof/Machine/Ops.lean ====
section
/-! DEFINITION. Machine/Ops.lean: the named operations over registers, memory, stack, display and program counter, and
taking a fault (00_scope.md R16, R17, R18; 10_state.md R22, R30, R31; 20_memory.md R52). -/

namespace Sys2Proof.Machine

/-! ## Updates of one field -/

namespace State

/-- Sets `I`. -/
def withI (s : State) (a : Word) : State := { s with I := a }

/-- Sets `pc`, unchecked; every instruction goes through `setPc`. -/
def withPc (s : State) (t : Nat) : State := { s with pc := t }

/-- Sets the stack's slots and pointer. -/
def withStack (s : State) (slots : Vector Nat 16) (sp : Fin 17) : State := { s with S := slots, SP := sp }

/-- Sets memory. -/
def withMem (s : State) (m : Memory) : State := { s with mem := m }

/-- Sets the display. -/
def withD (s : State) (d : Display) : State := { s with D := d }

/-- Sets the dirty flag. -/
def withDirty (s : State) (b : Bool) : State := { s with dirty := b }

/-- Sets the run status. -/
def withStatus (s : State) (st : Status) : State := { s with status := st }

/-- Sets the arguments of the cycle in progress. -/
def withCyc (s : State) (c : CycleArgs) : State := { s with cyc := c }

/-- Sets the count of random bytes consumed. -/
def withDraws (s : State) (n : Nat) : State := { s with draws := n }

/-! ## General registers (10_state.md R20 to R22) -/

/-- `V[x]` for a 4-bit index (R20). -/
def getV (s : State) (x : Index) : Byte := s.V[x.val]

/-- `V[x] <- b` for a 4-bit index (R20). -/
def setV (s : State) (x : Index) (b : Byte) : State := { s with V := s.V.set x.val b }

end State

/-- `VF` is `V[15]` (R21). -/
def VF : Index := 15

/-- Register read by a natural index, with the assertion of R22. -/
def readRegAt (k : Nat) (s : State) : Except Fault Byte :=
  if h : k < 16 then .ok (s.getV ⟨k, h⟩) else .error .registerIndexOutOfRange

/-- Register write by a natural index, with the assertion of R22. -/
def writeRegAt (k : Nat) (b : Byte) (s : State) : Except Fault State :=
  if h : k < 16 then .ok (s.setV ⟨k, h⟩ b) else .error .registerIndexOutOfRange

/-- The list `[V[k], …, V[k+n-1]]` (43_memory_ops.md R166), each index asserted (R22). -/
def readRegs (s : State) : Nat → Nat → Except Fault (List Byte)
  | _, 0     => .ok []
  | k, n + 1 => do
    let b ← readRegAt k s
    let bs ← readRegs s (k + 1) n
    .ok (b :: bs)

/-- `V[k] <- b0, V[k+1] <- b1, …` in ascending order (43_memory_ops.md R167), each index asserted (R22). -/
def writeRegs : Nat → List Byte → State → Except Fault State
  | _, [], s      => .ok s
  | k, b :: bs, s => do
    let t ← writeRegAt k b s
    writeRegs (k + 1) bs t

/-! ## Memory (20_memory.md) -/

/-- What an address that memory does not list reads as: the reset contents, font then zero
(70_reset_and_hazards.md R251; the image is listed). -/
def resetByte (p : Params) (a : Nat) : Byte :=
  if h : p.fontBase ≤ a ∧ a < p.fontBase + 80 then p.fontData[a - p.fontBase]'(by omega) else 0#8

/-- The byte listed for an address, if any. -/
def Memory.find (a : Nat) : Memory → Option Byte
  | []              => none
  | (a', b) :: rest => if a = a' then some b else Memory.find a rest

/-- Removes an address from the list. -/
def Memory.erase (a : Nat) : Memory → Memory
  | []              => []
  | (a', b) :: rest => if a = a' then rest else (a', b) :: Memory.erase a rest

/-- Lists a byte at an address, in rising order, replacing what was listed there. -/
def Memory.insert (a : Nat) (b : Byte) : Memory → Memory
  | []               => [(a, b)]
  | (a', b') :: rest =>
    if a < a' then (a, b) :: (a', b') :: rest
    else if a = a' then (a, b) :: rest
    else (a', b') :: Memory.insert a b rest

/-- `M[a]` (R59, R60): the listed byte, else the reset byte. -/
def Memory.read (p : Params) (m : Memory) (a : Nat) : Byte := (m.find a).getD (resetByte p a)

/-- `M[a] <- b`, keeping the canonical form: writing the reset byte removes the entry. -/
def Memory.write (p : Params) (m : Memory) (a : Nat) (b : Byte) : Memory :=
  if b = resetByte p a then m.erase a else m.insert a b

/-- `M[a] <- b0, M[a+1] <- b1, …` (00_scope.md R16). -/
def Memory.writeList (p : Params) : Memory → Nat → List Byte → Memory
  | m, _, []      => m
  | m, a, b :: bs => Memory.writeList p (m.write p a b) (a + 1) bs

/-- Addresses rise strictly from above `lo`, stay inside memory, and no entry equals what its address reads as
unlisted. -/
def Memory.wfFrom (p : Params) : Nat → Memory → Bool
  | _, []              => true
  | lo, (a, b) :: rest =>
    decide (lo ≤ a) && decide (a < Config.memSize) && decide (b ≠ resetByte p a) && Memory.wfFrom p (a + 1) rest

/-- The canonical form of memory. -/
def Memory.wf (p : Params) (m : Memory) : Bool := Memory.wfFrom p 0 m

/-- `M[a]` of a state. -/
def State.byteAt (s : State) (a : Nat) : Byte := s.mem.read s.params a

/-- `[M[a], …, M[a+n-1]]` of a state. -/
def State.bytesAt (s : State) : Nat → Nat → List Byte
  | _, 0     => []
  | a, n + 1 => s.byteAt a :: s.bytesAt (a + 1) n

/-- An access of `n` bytes at `a` is admitted (R52, D12). -/
def inMemory (a n : Nat) : Bool := decide (a + n ≤ Config.memSize)

/-- `MemRead(a, n)` (00_scope.md R16). -/
def memRead (a n : Nat) (s : State) : Except Fault (List Byte) :=
  if inMemory a n then .ok (s.bytesAt a n) else .error .memoryOutOfBounds

/-- `MemWrite(a, n, bs)` with `n` the length of `bs` (00_scope.md R16). -/
def memWrite (a : Nat) (bs : List Byte) (s : State) : Except Fault State :=
  if inMemory a bs.length then .ok (s.withMem (s.mem.writeList s.params a bs)) else .error .memoryOutOfBounds

/-! ## Program counter and call stack -/

/-- `pc <- t`, the checked write of 00_scope.md R17 (10_state.md R24, D33). -/
def setPc (t : Nat) (s : State) : Except Fault State :=
  if 4095 ≤ t then .error .illegalJumpTarget else .ok (s.withPc t)

/-- A skip: `pc <- pc + 2` if the condition holds, else nothing (41_flow.md R129). -/
def skipIf (cond : Bool) (s : State) : Except Fault State :=
  if cond then setPc (s.pc + 2) s else .ok s

/-- `Push(v)` (10_state.md R30). -/
def push (v : Nat) (s : State) : Except Fault State :=
  if h : s.SP.val < 16 then
    .ok (s.withStack (s.S.set s.SP.val v) ⟨s.SP.val + 1, by omega⟩)
  else .error .stackOverflow

/-- `Pop()` (10_state.md R31): the popped value and the state with `SP` one lower; the slot keeps its value (D28). -/
def pop (s : State) : Except Fault (Nat × State) :=
  if h : s.SP.val = 0 then .error .stackUnderflow
  else .ok (s.S[s.SP.val - 1]'(by omega), s.withStack s.S ⟨s.SP.val - 1, by omega⟩)

/-! ## Display cells (10_state.md R33) -/

/-- `D[r][c]`. -/
def cellAt (d : Display) (r : Fin 32) (c : Fin 64) : Bool := d[r.val][c.val]

/-- `D[r][c] <- b`. -/
def setCell (d : Display) (r : Fin 32) (c : Fin 64) (b : Bool) : Display := d.set r.val (d[r.val].set c.val b)

/-- Every cell off. -/
def allOff : Display := Vector.replicate 32 (Vector.replicate 64 false)

/-- The 2048 cells in row-major order: `D[r][c]` at linear index `r*64 + c` (R33). -/
def rowMajor (d : Display) : Vector Bool (32 * 64) := d.flatten

/-! ## Taking a fault (00_scope.md R18; 60_exceptions.md R223, R224) -/

/-- The record of a fault of the cycle in progress: kind, address of the instruction, its word (R224, D14). -/
def State.faultRecord (s : State) (k : Fault) : FaultRecord := { kind := k, pc := s.cyc.addr, opcode := s.cyc.word }

/-- `raise K`: enters the terminal status `Faulted` with the record; nothing else changes (R18, R223, R226). -/
def State.raise (s : State) (k : Fault) : State := s.withStatus (.faulted (s.faultRecord k))

/-- Runs an instruction's pseudocode: it ends in its result, or at a `raise`, which discards the instruction's own
writes (R18, R226, D15). -/
def attempt (s : State) (body : Except Fault State) : Host.Outcome State Fault Refusal :=
  match body with
  | .ok t    => .next t
  | .error k => .next (s.raise k)

/-- The numeric code of a fault kind (60_exceptions.md R220, D34). -/
def Fault.code : Fault → Nat
  | .stackOverflow            => 1
  | .stackUnderflow           => 2
  | .illegalJumpTarget        => 3
  | .memoryOutOfBounds        => 4
  | .registerIndexOutOfRange  => 5
  | .unrepresentableCharacter => 6
  | .unimplementedOpcode      => 7

end Sys2Proof.Machine
end

