-- ==== Sys2Proof/Machine/Operands.lean ====
section
/-! DEFINITION. Machine/Operands.lean: the address forms and operand values of the instructions (43_memory_ops.md R165;
30_encoding.md R73; 44_display.md R181). -/

namespace Sys2Proof.Machine

/-- The base of a register-indirect data access: `I` as a natural number, no wrap; byte `i` is at `I + i` (R165). -/
def dataBase (s : State) : Nat := s.I.toNat

/-- The immediate jump target `nnn` (R122, R123). -/
def immediateTarget (nnn : Addr12) : Nat := nnn.toNat

/-- The computed jump target `nnn + V[0]`, a natural sum with no truncation (R128). -/
def computedTarget (nnn : Addr12) (s : State) : Nat := nnn.toNat + (s.getV 0).toNat

/-- `nnn` zero-extended to 16 bits (R160). -/
def addressImmediate (nnn : Addr12) : Word := nnn.zeroExtend 16

/-- `(I + V[x]) mod 65536` (R161). -/
def addressSum (x : Index) (s : State) : Word := s.I + (s.getV x).zeroExtend 16

/-- The address of the font glyph of a character: `FONT_BASE + 5 * v` (R162). -/
def glyphAddress (p : Params) (v : Byte) : Word := BitVec.ofNat 16 (p.fontBase + 5 * v.toNat)

/-- The three decimal digits of a byte, hundreds first (R163, R164). -/
def bcdDigits (v : Byte) : List Byte :=
  [BitVec.ofNat 8 (v.toNat / 100), BitVec.ofNat 8 (v.toNat / 10 % 10), BitVec.ofNat 8 (v.toNat % 10)]

/-- The sprite's starting column: `V[x] mod 64` (R182). -/
def spriteColumn (x : Index) (s : State) : Nat := (s.getV x).toNat % Config.columns

/-- The sprite's starting row: `V[y] mod 32` (R182). -/
def spriteRow (y : Index) (s : State) : Nat := (s.getV y).toNat % Config.rows

/-- The pixel of sprite column `j`: bit `7 - j` of the row's byte (R181). -/
def spriteBit (row : Byte) (j : Nat) : Bool := row.getLsbD (7 - j)

/-- A logical key value as the byte it writes (45_input.md R202, R205). -/
def keyByte (k : Index) : Byte := BitVec.ofNat 8 k.val

end Sys2Proof.Machine
end

