-- ==== Sys2Proof/Machine/Flags.lean ====
section
/-! DEFINITION. Machine/Flags.lean: the flag `VF`, written as 0 or 1 by `8xy4` to `8xyE` and `Dxyd` (10_state.md R38;
42_alu.md R147). -/

namespace Sys2Proof.Machine

/-- A flag as the byte written to `VF`: 1 or 0 (R38). -/
def flagByte (b : Bool) : Byte := if b then 1#8 else 0#8

/-- Carry of `a + b`: the exact sum is 256 or more (R146). -/
def carry (a b : Byte) : Bool := decide (256 ≤ a.toNat + b.toNat)

/-- Borrow of `a - b`: `a < b` (R148, R150). -/
def borrow (a b : Byte) : Bool := decide (a.toNat < b.toNat)

/-- The bit a right shift by one moves out: bit 0 (R149). -/
def lowBit (a : Byte) : Bool := a.getLsbD 0

/-- The bit a left shift by one moves out: bit 7 (R151). -/
def highBit (a : Byte) : Bool := a.getLsbD 7

/-- Writes a result to `V[x]`, then a flag to `VF`; so with `x = 15` the flag stays (R147, D7). -/
def writeWithFlag (x : Index) (result : Byte) (flag : Bool) (s : State) : State :=
  (s.setV x result).setV VF (flagByte flag)

end Sys2Proof.Machine
end

