-- ==== Sys2Proof/Machine/Alu.lean ====
section
/-! DEFINITION. Machine/Alu.lean: register loads, arithmetic, logic and the random byte (42_alu.md). Both operands are
read before any write. -/

namespace Sys2Proof.Machine

/-- LD Vx, kk (R140). -/
def execLdVxKk (x : Index) (kk : Byte) (s : State) : Host.Outcome State Fault Refusal :=
  .next (s.setV x kk)

/-- ADD Vx, kk (R141): modulo 256, no flag. -/
def execAddVxKk (x : Index) (kk : Byte) (s : State) : Host.Outcome State Fault Refusal :=
  .next (s.setV x (s.getV x + kk))

/-- LD Vx, Vy (R142). -/
def execLdVxVy (x y : Index) (s : State) : Host.Outcome State Fault Refusal :=
  .next (s.setV x (s.getV y))

/-- OR Vx, Vy (R143): no flag. -/
def execOrVxVy (x y : Index) (s : State) : Host.Outcome State Fault Refusal :=
  .next (s.setV x (s.getV x ||| s.getV y))

/-- AND Vx, Vy (R144): no flag. -/
def execAndVxVy (x y : Index) (s : State) : Host.Outcome State Fault Refusal :=
  .next (s.setV x (s.getV x &&& s.getV y))

/-- XOR Vx, Vy (R145): no flag. -/
def execXorVxVy (x y : Index) (s : State) : Host.Outcome State Fault Refusal :=
  .next (s.setV x (s.getV x ^^^ s.getV y))

/-- ADD Vx, Vy (R146): flag = carry. -/
def execAddVxVy (x y : Index) (s : State) : Host.Outcome State Fault Refusal :=
  .next (writeWithFlag x (s.getV x + s.getV y) (carry (s.getV x) (s.getV y)) s)

/-- SUB Vx, Vy (R148): flag = borrow of `V[x] - V[y]`. -/
def execSubVxVy (x y : Index) (s : State) : Host.Outcome State Fault Refusal :=
  .next (writeWithFlag x (s.getV x - s.getV y) (borrow (s.getV x) (s.getV y)) s)

/-- SHR Vx (R149): flag = bit 0 before the shift; `y` is not used (R81, D8). -/
def execShrVx (x _y : Index) (s : State) : Host.Outcome State Fault Refusal :=
  .next (writeWithFlag x (s.getV x >>> 1) (lowBit (s.getV x)) s)

/-- SUBN Vx, Vy (R150): flag = borrow of `V[y] - V[x]`. -/
def execSubnVxVy (x y : Index) (s : State) : Host.Outcome State Fault Refusal :=
  .next (writeWithFlag x (s.getV y - s.getV x) (borrow (s.getV y) (s.getV x)) s)

/-- SHL Vx (R151): flag = bit 7 before the shift; `y` is not used (R81, D8). -/
def execShlVx (x _y : Index) (s : State) : Host.Outcome State Fault Refusal :=
  .next (writeWithFlag x (s.getV x <<< 1) (highBit (s.getV x)) s)

/-- RND Vx, kk (R152): `V[x] <- r & kk`, `r` the random byte of the cycle (R108); the draw is counted (log 3). -/
def execRndVxKk (x : Index) (kk : Byte) (s : State) : Host.Outcome State Fault Refusal :=
  .next ((s.setV x (s.cyc.random &&& kk)).withDraws (s.draws + 1))

end Sys2Proof.Machine
end

