-- ==== Sys2Proof/Machine/Display.lean ====
section
/-! DEFINITION. Machine/Display.lean: clearing the display and the XOR sprite blitter (44_display.md). -/

namespace Sys2Proof.Machine

/-- CLS (R180): every cell off, the display marked dirty. -/
def execCls (s : State) : Host.Outcome State Fault Refusal :=
  .next ((s.withD allOff).withDirty true)

/-- A draw in progress: the display so far, and whether a lit cell was turned off (R184). -/
structure Blit where
  display  : Display
  collided : Bool
deriving DecidableEq, Repr

/-- The body of R182's loops for pixel `(i, j)` of a sprite at column `x0`, row `y0`: an off-screen pixel or a 0 bit
does nothing (R183); a 1 bit toggles its cell and collides if the cell was lit (R184). -/
def blitPixel (x0 y0 i j : Nat) (bit : Bool) (b : Blit) : Blit :=
  if h : y0 + i < 32 ∧ x0 + j < 64 ∧ bit = true then
    let old := cellAt b.display ⟨y0 + i, h.1⟩ ⟨x0 + j, h.2.1⟩
    { display := setCell b.display ⟨y0 + i, h.1⟩ ⟨x0 + j, h.2.1⟩ (!old), collided := b.collided || old }
  else b

/-- R182's inner loop from column `j`, over the columns that remain to 8. -/
def blitColumns (x0 y0 i : Nat) (row : Byte) : Nat → Nat → Blit → Blit
  | _, 0, b     => b
  | j, n + 1, b => blitColumns x0 y0 i row (j + 1) n (blitPixel x0 y0 i j (spriteBit row j) b)

/-- R182's outer loop from sprite row `i`. -/
def blitRows (x0 y0 : Nat) : Nat → List Byte → Blit → Blit
  | _, [], b          => b
  | i, row :: rows, b => blitRows x0 y0 (i + 1) rows (blitColumns x0 y0 i row 0 8 b)

/-- DRW Vx, Vy, d (R182): coordinates before the `VF` reset (D20), all `d` bytes read and checked (D19), `VF` the
collision, the display marked dirty (R185). -/
def execDrwVxVyD (x y d : Index) (s : State) : Host.Outcome State Fault Refusal :=
  attempt s do
    let rows ← memRead (dataBase s) d.val s
    let b := blitRows (spriteColumn x s) (spriteRow y s) 0 rows { display := s.D, collided := false }
    .ok (((s.setV VF (flagByte b.collided)).withD b.display).withDirty true)

end Sys2Proof.Machine
end

