-- ==== Sys2Proof/Machine/Flow.lean ====
section
/-! DEFINITION. Machine/Flow.lean: control flow (41_flow.md). On entry `pc` is already `a + 2`. -/

namespace Sys2Proof.Machine

/-- HALT (R120, D16): `status <- Halted(HALT_MODE)`. -/
def execHalt (s : State) : Host.Outcome State Fault Refusal :=
  .next (s.withStatus (.halted s.params.haltMode))

/-- RET (R121): pops the return address into `pc`, underflow checked first (R225). -/
def execRet (s : State) : Host.Outcome State Fault Refusal :=
  attempt s do
    let (t, s1) ← pop s
    setPc t s1

/-- JP nnn (R122). -/
def execJpNnn (nnn : Addr12) (s : State) : Host.Outcome State Fault Refusal :=
  attempt s (setPc (immediateTarget nnn) s)

/-- CALL nnn (R123): pushes `pc = a + 2`, overflow checked first (R225). -/
def execCallNnn (nnn : Addr12) (s : State) : Host.Outcome State Fault Refusal :=
  attempt s do
    let s1 ← push s.pc s
    setPc (immediateTarget nnn) s1

/-- SE Vx, kk (R124). -/
def execSeVxKk (x : Index) (kk : Byte) (s : State) : Host.Outcome State Fault Refusal :=
  attempt s (skipIf (s.getV x == kk) s)

/-- SNE Vx, kk (R125). -/
def execSneVxKk (x : Index) (kk : Byte) (s : State) : Host.Outcome State Fault Refusal :=
  attempt s (skipIf (s.getV x != kk) s)

/-- SE Vx, Vy (R126). -/
def execSeVxVy (x y : Index) (s : State) : Host.Outcome State Fault Refusal :=
  attempt s (skipIf (s.getV x == s.getV y) s)

/-- SNE Vx, Vy (R127). -/
def execSneVxVy (x y : Index) (s : State) : Host.Outcome State Fault Refusal :=
  attempt s (skipIf (s.getV x != s.getV y) s)

/-- JP V0, nnn (R128). -/
def execJpV0Nnn (nnn : Addr12) (s : State) : Host.Outcome State Fault Refusal :=
  attempt s (setPc (computedTarget nnn s) s)

end Sys2Proof.Machine
end

