-- ==== Sys2Proof/Machine/Input.lean ====
section
/-! DEFINITION. Machine/Input.lean: the key wait (45_input.md). -/

namespace Sys2Proof.Machine

/-- LD Vx, K (R200): `status <- WaitingForKey(x)`; `V[x]` is written by `keyDown` (R202). -/
def execLdVxK (x : Index) (s : State) : Host.Outcome State Fault Refusal :=
  .next (s.withStatus (.waitingForKey x))

/-- `key_down(k)` (R202); discarded unless the machine waits (R203, D17). -/
def keyDown (k : Index) (s : State) : State :=
  match s.status with
  | .waitingForKey t => (s.setV t (keyByte k)).withStatus .running
  | .running         => s
  | .halted _        => s
  | .stopped         => s
  | .faulted _       => s

end Sys2Proof.Machine
end

