-- ==== Sys2Proof/Machine/MemoryOps.lean ====
section
/-! DEFINITION. Machine/MemoryOps.lean: address register, font, BCD, block store and load (43_memory_ops.md). -/

namespace Sys2Proof.Machine

/-- LD I, nnn (R160). -/
def execLdINnn (nnn : Addr12) (s : State) : Host.Outcome State Fault Refusal :=
  .next (s.withI (addressImmediate nnn))

/-- ADD I, Vx (R161, D11): modulo 65536, no flag. -/
def execAddIVx (x : Index) (s : State) : Host.Outcome State Fault Refusal :=
  .next (s.withI (addressSum x s))

/-- LD F, Vx (R162, C1, D32): the whole `V[x]`, a fault above 15. -/
def execLdFVx (x : Index) (s : State) : Host.Outcome State Fault Refusal :=
  attempt s
    (if 15 < (s.getV x).toNat then .error .unrepresentableCharacter
     else .ok (s.withI (glyphAddress s.params (s.getV x))))

/-- LD B, Vx (R163, R164). -/
def execLdBVx (x : Index) (s : State) : Host.Outcome State Fault Refusal :=
  attempt s (memWrite (dataBase s) (bcdDigits (s.getV x)) s)

/-- LD [I], Vx (R166, D13): `I` unchanged. -/
def execLdMemVx (x : Index) (s : State) : Host.Outcome State Fault Refusal :=
  attempt s do
    let bs ← readRegs s 0 (x.val + 1)
    memWrite (dataBase s) bs s

/-- LD Vx, [I] (R167, D13): all bytes read before any register is written; `I` unchanged. -/
def execLdVxMem (x : Index) (s : State) : Host.Outcome State Fault Refusal :=
  attempt s do
    let bs ← memRead (dataBase s) (x.val + 1) s
    writeRegs 0 bs s

end Sys2Proof.Machine
end

