-- ==== Sys2Proof/Machine/Cycle.lean ====
section
/-! DEFINITION. Machine/Cycle.lean: the fetch-decode-execute cycle (40_cycle.md). -/

namespace Sys2Proof.Machine

/-- Applies a function to the state of a `next` outcome. -/
def onNext (f : State → State) (o : Host.Outcome State Fault Refusal) : Host.Outcome State Fault Refusal :=
  match o with
  | .next s    => .next (f s)
  | .fault k   => .fault k
  | .refused r => .refused r

/-- The fetch (R101): `M[pc] ++ M[pc+1]`, big-endian (R53); out of range only for `pc >= 4095` (R109). -/
def fetch (s : State) : Except Fault Word :=
  if inMemory s.pc 2 then .ok (joinBytes (s.byteAt s.pc) (s.byteAt (s.pc + 1))) else .error .memoryOutOfBounds

/-- The start of a cycle: the address of the instruction and the cycle's random byte become the cycle's arguments
(R100). -/
def State.beginCycle (s : State) (r : Byte) : State := s.withCyc { addr := s.pc, word := none, random := r }

/-- The fetched word becomes an argument of the cycle (R100). -/
def State.withWord (s : State) (w : Word) : State := s.withCyc { s.cyc with word := some w }

/-- The end of a cycle: no cycle in progress (log 5). -/
def State.endCycle (s : State) : State := s.withCyc CycleArgs.idle

/-- Dispatch on the fetched word (R103): its instruction, or `UnimplementedOpcode` (R77). -/
def execute (w : Word) (s : State) : Host.Outcome State Fault Refusal :=
  match decodeWord w with
  | .ok i    => exec i s
  | .error _ => .next (s.raise .unimplementedOpcode)

/-- Advance by 2 through the checked write, then execute (R102); a fault of the advance comes first (R225). -/
def advanceAndExecute (w : Word) (s : State) : Host.Outcome State Fault Refusal :=
  match setPc (s.pc + 2) s with
  | .ok t    => execute w t
  | .error k => .next (s.raise k)

/-- A cycle of a running machine: fetch, advance, execute (R100). -/
def runCycle (r : Byte) (s : State) : Host.Outcome State Fault Refusal :=
  let s0 := s.beginCycle r
  match fetch s0 with
  | .ok w    => onNext State.endCycle (advanceAndExecute w (s0.withWord w))
  | .error k => onNext State.endCycle (.next (s0.raise k))

/-- `cycle(r)` (R100): nothing happens while waiting for a key (R104) or after the run has ended (R105). -/
def cycle (r : Byte) (s : State) : Host.Outcome State Fault Refusal :=
  match s.status with
  | .running         => runCycle r s
  | .waitingForKey _ => .next s
  | .halted _        => .next s
  | .stopped         => .next s
  | .faulted _       => .next s

/-- The address at which a word is placed for the very next cycle to run it: `pc`, or `PROGRAM_BASE`'s default where
a cycle at `pc` could not even advance (R102). -/
def placeAddress (s : State) : Nat := if s.pc + 2 < 4095 then s.pc else Config.defaults.programBase

/-- The word stored big-endian where the next cycle fetches, in a running machine (log 16). -/
def placeWord (s : State) (w : Word) : State :=
  ((s.withPc (placeAddress s)).withStatus .running).withMem
    (s.mem.writeList s.params (placeAddress s) [highByte w, lowByte w])

end Sys2Proof.Machine
end

