-- ==== Sys2Proof/Machine/Step.lean ====
section
/-! DEFINITION. Machine/Step.lean: the step, one `cycle` with the free random byte, and the host's way to place a word. -/

namespace Sys2Proof.Machine

/-- One run-loop cycle (40_cycle.md R100) whose random byte is the free value `Config.randomByte` of the number of
bytes consumed so far (00_scope.md R11; log 3). -/
def step (s : State) : Host.Outcome State Fault Refusal := cycle (Config.randomByte s.draws) s

/-- `s` with the instruction of word `w` (numbered as spec/opcode_table.json numbers it) stored where the next step
fetches (log 16). -/
def State.withFetchWord (s : State) (nbits w : Nat) : State := placeWord s (BitVec.ofNat 16 (w % 2 ^ nbits))

end Sys2Proof.Machine
end

