-- ==== Sys2Proof/Machine/Transactions.lean ====
section
/-! DEFINITION. Machine/Transactions.lean: the CORE's interface to its host, atomic transactions (10_state.md R40 to R43;
60_exceptions.md R232; 70_reset_and_hazards.md R250, R257). `key_down` stands in Machine/Input.lean, `cycle` in
Machine/Cycle.lean. -/

namespace Sys2Proof.Machine

/-- `construct(image, params)` (R250): the reset state with the image written at `PROGRAM_BASE` (R251), or no machine
when the image does not fit (R257) or the parameters are out of range (R7, R8; log 7). -/
def construct (image : List Byte) (p : Params) : Option State :=
  if p.wellFormed && p.imageFits image then
    some ((State.initial p).withMem (Memory.writeList p [] p.programBase image))
  else none

/-- `stop()` (R232). -/
def stop (s : State) : State :=
  match s.status with
  | .running         => s.withStatus .stopped
  | .waitingForKey _ => s.withStatus .stopped
  | .halted _        => s
  | .stopped         => s
  | .faulted _       => s

/-- `clear_dirty()` (R42). -/
def clearDirty (s : State) : State := s.withDirty false

/-- `read_reg(i)` (R41). -/
def readReg (i : Index) (s : State) : Byte := s.getV i

/-- `snapshot()` (R42): the cells in row-major order, and the dirty flag. -/
def snapshot (s : State) : Vector Bool (32 * 64) × Bool := (rowMajor s.D, s.dirty)

/-- `read_status()` (R43). -/
def readStatus (s : State) : Status := s.status

/-- The transactions on a constructed machine (R40). -/
inductive Transaction where
  | cycle (r : Byte)
  | keyDown (k : Index)
  | stop
  | readReg (i : Index)
  | snapshot
  | clearDirty
  | readStatus
deriving DecidableEq, Repr

/-- What a transaction answers to the host (R41 to R43). -/
inductive Answer where
  | nothing
  | register (b : Byte)
  | display (cells : Vector Bool (32 * 64)) (dirty : Bool)
  | status (st : Status)
deriving DecidableEq, Repr

/-- The state a transaction leaves (R40). -/
def transact (x : Transaction) (s : State) : Host.Outcome State Fault Refusal :=
  match x with
  | .cycle r    => cycle r s
  | .keyDown k  => .next (keyDown k s)
  | .stop       => .next (stop s)
  | .readReg _  => .next s
  | .snapshot   => .next s
  | .clearDirty => .next (clearDirty s)
  | .readStatus => .next s

/-- What a transaction answers (R41 to R43). -/
def answer (x : Transaction) (s : State) : Answer :=
  match x with
  | .cycle _    => .nothing
  | .keyDown _  => .nothing
  | .stop       => .nothing
  | .readReg i  => .register (readReg i s)
  | .snapshot   => .display (snapshot s).1 (snapshot s).2
  | .clearDirty => .nothing
  | .readStatus => .status (readStatus s)

/-- Any sequence of transactions, in the order the host issues them (R40, D26). -/
def transactAll : List Transaction → State → Host.Outcome State Fault Refusal
  | [], s      => .next s
  | x :: xs, s =>
    match transact x s with
    | .next t    => transactAll xs t
    | .fault k   => .fault k
    | .refused r => .refused r

end Sys2Proof.Machine
end

