-- ==== Sys2Proof/Safety.lean ====
section
/-! DEFINITION. Safety.lean: the terms in which claims about the machine are stated: the invariant of every state between
transactions, frames, the word at an address, sprite coverage, and call and return sequences. -/

namespace Sys2Proof.Machine

/-! ## Status -/

/-- The two statuses of the input-wait machine: `Running` and `WaitingForKey(t)` (R35). -/
def Status.live : Status → Bool
  | .running         => true
  | .waitingForKey _ => true
  | .halted _        => false
  | .stopped         => false
  | .faulted _       => false

/-- The machine has faulted; a claim reads nothing of such a state but its record (R226). -/
def State.isFaulted (s : State) : Bool :=
  match s.status with
  | .faulted _       => true
  | .running         => false
  | .waitingForKey _ => false
  | .halted _        => false
  | .stopped         => false

/-- The outcome is a fault of kind `k` taken by the instruction of the cycle in progress (R223, R224). -/
def FaultsWith (s : State) (k : Fault) (o : Host.Outcome State Fault Refusal) : Prop :=
  ∃ t, o = .next t ∧ t.status = .faulted { kind := k, pc := s.cyc.addr, opcode := s.cyc.word }

/-! ## The invariant -/

/-- While the machine is live, `pc` leaves a two-byte instruction window (R25). -/
abbrev PcInWindow (s : State) : Prop := s.status.live = true → s.pc ≤ 4094

/-- While the machine is live, every call-stack slot holds a legal program-counter value (R28). -/
abbrev StackHoldsTargets (s : State) : Prop := s.status.live = true → ∀ j : Fin 16, s.S[j.val] ≤ 4094

/-- Memory is in its canonical form. -/
abbrev MemoryCanonical (s : State) : Prop := Memory.wf s.params s.mem = true

/-- No cycle is in progress. -/
abbrev BetweenCycles (s : State) : Prop := s.cyc = CycleArgs.idle

/-- What holds of every state between transactions. -/
abbrev Invariant (s : State) : Prop :=
  PcInWindow s ∧ StackHoldsTargets s ∧ MemoryCanonical s ∧ BetweenCycles s ∧ s.params.wellFormed = true

/-! ## Frames -/

/-- Every byte of memory reads as before. -/
def SameMemory (s t : State) : Prop := ∀ a, t.byteAt a = s.byteAt a

/-- Nothing but the general registers differs. -/
def SameButRegisters (s t : State) : Prop :=
  t.I = s.I ∧ t.pc = s.pc ∧ t.S = s.S ∧ t.SP = s.SP ∧ SameMemory s t ∧ t.D = s.D ∧ t.dirty = s.dirty ∧
    t.status = s.status ∧ t.params = s.params ∧ t.cyc = s.cyc ∧ t.draws = s.draws

/-- Every general register is as before. -/
def SameRegisters (s t : State) : Prop := ∀ j : Index, t.getV j = s.getV j

/-- The display and its dirty flag are as before. -/
def SameDisplay (s t : State) : Prop := (∀ r c, cellAt t.D r c = cellAt s.D r c) ∧ t.dirty = s.dirty

/-- The call stack is as before: every slot and the pointer. -/
def SameStack (s t : State) : Prop := (∀ j : Fin 16, t.S[j.val] = s.S[j.val]) ∧ t.SP = s.SP

/-- The run status, the parameters, the cycle in progress and the count of draws are as before. -/
def SameControl (s t : State) : Prop :=
  t.status = s.status ∧ t.params = s.params ∧ t.cyc = s.cyc ∧ t.draws = s.draws

/-- Nothing but memory differs. -/
def SameButMemory (s t : State) : Prop :=
  SameRegisters s t ∧ t.I = s.I ∧ t.pc = s.pc ∧ SameStack s t ∧ SameDisplay s t ∧ SameControl s t

/-- Nothing but `pc` and the call stack differs. -/
def SameButFlow (s t : State) : Prop :=
  SameRegisters s t ∧ t.I = s.I ∧ SameMemory s t ∧ SameDisplay s t ∧ SameControl s t

/-! ## Shapes of results -/

/-- The instruction's word is the number `n` (R74). -/
def EncodesAs (i : Instr) (n : Nat) : Prop := (encode i).toNat = n

/-- The instruction completes, leaving `value j` in every register `j` and everything else as it was. -/
def WritesRegisters (i : Instr) (s : State) (value : Index → Byte) : Prop :=
  ∃ t, exec i s = .next t ∧ (∀ j, t.getV j = value j) ∧ SameButRegisters s t

/-- The instruction is a skip on `cond`: taken, it moves `pc` on by 2 if that is a legal target, else it faults; not
taken, it changes nothing (R129). -/
def SkipsWhen (i : Instr) (s : State) (cond : Prop) : Prop :=
  (cond → s.pc + 2 < 4095 → exec i s = .next { s with pc := s.pc + 2 }) ∧
  (cond → 4095 ≤ s.pc + 2 → FaultsWith s .illegalJumpTarget (exec i s)) ∧
  (¬ cond → exec i s = .next s)

/-! ## Fetching -/

/-- The word at an address, big-endian (R53). -/
def State.wordAt (s : State) (a : Nat) : Word := joinBytes (s.byteAt a) (s.byteAt (a + 1))

/-- The state in which `execute` runs the instruction at `pc` in a cycle with random byte `r`: `pc` advanced, the
cycle's arguments set (R100, R102). -/
def State.inExecute (s : State) (r : Byte) : State :=
  { s with pc := s.pc + 2, cyc := { addr := s.pc, word := some (s.wordAt s.pc), random := r } }

/-- The next cycle of a running machine executes instruction `i`: it is fetched, and the advance is legal. -/
def State.aboutToRun (s : State) (i : Instr) : Prop :=
  s.status = .running ∧ s.pc + 2 < 4095 ∧ decodeWord (s.wordAt s.pc) = .ok i

/-! ## The unimplemented words, as 30_encoding.md R77 lists them -/

/-- R77's list, by fields: class 0 other than three words, classes 5 and 9 with `d` not 0, class 8 with `d` in
8, 9, A, B, C, D, F, all of class E, class F with `kk` outside the six values. -/
def listedUnimplemented (w : Word) : Bool :=
  let c := w.toNat / 4096
  let d := w.toNat % 16
  let kk := w.toNat % 256
  decide ((c = 0x0 ∧ w.toNat ≠ 0x0000 ∧ w.toNat ≠ 0x00E0 ∧ w.toNat ≠ 0x00EE) ∨ (c = 0x5 ∧ d ≠ 0) ∨ (c = 0x9 ∧ d ≠ 0) ∨
    (c = 0x8 ∧ (d = 0x8 ∨ d = 0x9 ∨ d = 0xA ∨ d = 0xB ∨ d = 0xC ∨ d = 0xD ∨ d = 0xF)) ∨ c = 0xE ∨
    (c = 0xF ∧ kk ≠ 0x0A ∧ kk ≠ 0x1E ∧ kk ≠ 0x29 ∧ kk ≠ 0x33 ∧ kk ≠ 0x55 ∧ kk ≠ 0x65))

/-! ## Sprites -/

/-- A set bit of the `d`-row sprite at `I` falls on cell `(r, c)` when the sprite is drawn at column `x0`, row `y0`:
row `i` at display row `y0 + i`, bit `7 - j` at display column `x0 + j` (R181). -/
def SpriteCovers (s : State) (x0 y0 d : Nat) (r : Fin 32) (c : Fin 64) : Prop :=
  ∃ i j : Nat, i < d ∧ j < 8 ∧ y0 + i = r.val ∧ x0 + j = c.val ∧
    (s.byteAt (s.I.toNat + i)).getLsbD (7 - j) = true

/-! ## Calls and returns -/

/-- Executes calls in order, each given the `pc` at which it executes (its return address) and its target. -/
def runCalls : List (Nat × Addr12) → State → Host.Outcome State Fault Refusal
  | [], s                => .next s
  | (ra, nnn) :: rest, s =>
    match exec (.callNnn nnn) (s.withPc ra) with
    | .next t    => runCalls rest t
    | .fault k   => .fault k
    | .refused r => .refused r

/-- The program counters that `n` returns in a row give. -/
def returnTargets : Nat → State → List Nat
  | 0, _     => []
  | n + 1, s =>
    match exec .ret s with
    | .next t    => t.pc :: returnTargets n t
    | .fault _   => []
    | .refused _ => []

/-- Executes `n` returns in a row. -/
def runReturns : Nat → State → Host.Outcome State Fault Refusal
  | 0, s     => .next s
  | n + 1, s =>
    match exec .ret s with
    | .next t    => runReturns n t
    | .fault k   => .fault k
    | .refused r => .refused r

/-! ## Which instructions write what (10_state.md R38 and the table of its section 7) -/

/-- The registers an instruction writes when it executes: its destination, and `VF` for the six flag writers. `Fx0A`
writes none at execution (R200). -/
def writtenRegisters : Instr → Index → Bool
  | .ldVxKk x _, j | .addVxKk x _, j | .ldVxVy x _, j | .orVxVy x _, j | .andVxVy x _, j | .xorVxVy x _, j
  | .rndVxKk x _, j => decide (j = x)
  | .addVxVy x _, j | .subVxVy x _, j | .shrVx x _, j | .subnVxVy x _, j | .shlVx x _, j => decide (j = x ∨ j = 15)
  | .drwVxVyD _ _ _, j => decide (j = 15)
  | .ldVxMem x, j => decide (j ≤ x)
  | .halt, _ | .cls, _ | .ret, _ | .jpNnn _, _ | .callNnn _, _ | .seVxKk _ _, _ | .sneVxKk _ _, _ | .seVxVy _ _, _
  | .sneVxVy _ _, _ | .ldINnn _, _ | .jpV0Nnn _, _ | .ldVxK _, _ | .addIVx _, _ | .ldFVx _, _ | .ldBVx _, _
  | .ldMemVx _, _ => false

/-- The six instructions that write `VF` as a flag (R38). -/
def writesFlag (i : Instr) : Prop :=
  (∃ x y, i = .addVxVy x y ∨ i = .subVxVy x y ∨ i = .shrVx x y ∨ i = .subnVxVy x y ∨ i = .shlVx x y) ∨
    ∃ x y d, i = .drwVxVyD x y d

/-- The instructions that set `pc` explicitly: return, jumps, call, skips. -/
def writesPc (i : Instr) : Prop :=
  i = .ret ∨ (∃ n, i = .jpNnn n ∨ i = .callNnn n ∨ i = .jpV0Nnn n) ∨
    (∃ x kk, i = .seVxKk x kk ∨ i = .sneVxKk x kk) ∨ ∃ x y, i = .seVxVy x y ∨ i = .sneVxVy x y

/-! ## The transitions of the run status (45_input.md R201) -/

/-- The status changes R201 and R35 allow, by the status before: what each needs of the transaction and of the
instruction at `pc`. -/
def AllowedTransition (x : Transaction) (s t : State) : Prop :=
  match s.status with
  | .running =>
    t.status = .running ∨
    (x = .stop ∧ t.status = .stopped) ∨
    ((∃ r, x = .cycle r) ∧
      ((decodeWord (s.wordAt s.pc) = .ok .halt ∧ t.status = .halted s.params.haltMode) ∨
       (∃ y, decodeWord (s.wordAt s.pc) = .ok (.ldVxK y) ∧ t.status = .waitingForKey y) ∨
       ∃ record, t.status = .faulted record))
  | .waitingForKey y =>
    (x = .stop ∧ t.status = .stopped) ∨ ((∃ k, x = .keyDown k) ∧ t.status = .running) ∨
    (x ≠ .stop ∧ (∀ k, x ≠ .keyDown k) ∧ t.status = .waitingForKey y)
  | .halted m  => t.status = .halted m
  | .stopped   => t.status = .stopped
  | .faulted record => t.status = .faulted record

/-! ## What instructions may raise (60_exceptions.md R221) -/

/-- The fault kinds an instruction can raise, as R221's table lists them. -/
def faultKinds : Instr → List Fault
  | .halt | .cls | .ldVxKk _ _ | .addVxKk _ _ | .ldVxVy _ _ | .orVxVy _ _ | .andVxVy _ _ | .xorVxVy _ _
  | .addVxVy _ _ | .subVxVy _ _ | .shrVx _ _ | .subnVxVy _ _ | .shlVx _ _ | .ldINnn _ | .rndVxKk _ _
  | .ldVxK _ | .addIVx _ => []
  | .ret => [.stackUnderflow, .illegalJumpTarget]
  | .jpNnn _ | .seVxKk _ _ | .sneVxKk _ _ | .seVxVy _ _ | .sneVxVy _ _ | .jpV0Nnn _ => [.illegalJumpTarget]
  | .callNnn _ => [.stackOverflow, .illegalJumpTarget]
  | .drwVxVyD _ _ _ | .ldBVx _ | .ldMemVx _ | .ldVxMem _ => [.memoryOutOfBounds]
  | .ldFVx _ => [.unrepresentableCharacter]

end Sys2Proof.Machine
end

