-- ==== Sys2Proof/Certificates/Slice0/Obligations.lean ====
section
/-! DEFINITION. Certificates/Slice0/Obligations.lean: the statements for the provers. Each docstring names the rule of spec/
it formalises; where a clause rests on a decision of the spec or of this model, it says so. A statement about a fault
reads nothing of the faulted state but its record (60_exceptions.md R226). -/

open Sys2Proof Sys2Proof.Machine

/-! ## Encoding (30_encoding.md) -/

/-- Decoding an encoded instruction gives it back, with every operand at every value its field admits, from its word and
from its two bytes in memory order (R70, R71, R74; R53). Every term of `Instr` is well-formed. -/
def Obligations.DecodeOfEncode : Prop :=
  ∀ (i : Instr) (rest : List Byte),
    decodeWord (encode i) = .ok i ∧ decodeBytes (encodeBytes i ++ rest) = .ok (i, rest)

/-- A word that decodes is exactly the encoding of what it decodes to: no bit of a word is ignored (R76), `y` of `8xy6`
and `8xyE` being an operand (R81). -/
def Obligations.EncodeOfDecode : Prop :=
  ∀ (w : Word) (i : Instr), decodeWord w = .ok i → encode i = w

/-- The decoder, which selects by the class nibble (R75), agrees with the opcode map's masks and matches (R74): a word
decodes to an instruction exactly when a row selects it, the row is that instruction's, and no other row selects it. -/
def Obligations.DecoderAgreesWithOpcodeMap : Prop :=
  (∀ (w : Word) (i : Instr), decodeWord w = .ok i →
    i.row ∈ opcodeRows ∧ i.row.selects w = true ∧ ∀ q ∈ opcodeRows, q.selects w = true → q = i.row) ∧
  ∀ w : Word, (∀ q ∈ opcodeRows, q.selects w = false) ↔ decodeWord w = .error (.unimplementedOpcode w)

/-- Words written out from the patterns of the opcode map, one per family, decode to their instructions, and words that
R76 names decode to none. -/
def Obligations.WrittenOutWordsDecode : Prop :=
  decodeTableWord 16 0x0000 = some .halt ∧ decodeTableWord 16 0x2345 = some (.callNnn 0x345) ∧
  decodeTableWord 16 0x3A5C = some (.seVxKk 10 0x5C) ∧ decodeTableWord 16 0x7B01 = some (.addVxKk 11 0x01) ∧
  decodeTableWord 16 0x8127 = some (.subnVxVy 1 2) ∧ decodeTableWord 16 0x82FE = some (.shlVx 2 15) ∧
  decodeTableWord 16 0xA123 = some (.ldINnn 0x123) ∧ decodeTableWord 16 0xD12F = some (.drwVxVyD 1 2 15) ∧
  decodeTableWord 16 0xF30A = some (.ldVxK 3) ∧ decodeTableWord 16 0xFE33 = some (.ldBVx 14) ∧
  decodeTableWord 16 0x5121 = none ∧ decodeTableWord 16 0xE09E = none ∧ decodeTableWord 16 0xF007 = none

/-- R77: the words no row of the opcode map selects are exactly the listed ones, and a cycle that executes one raises
`UnimplementedOpcode`. That the record holds the address before the advance and the word is R224 (the spec's decision D14,
log 14). -/
def Obligations.UnimplementedWordsFault : Prop :=
  (∀ w : Word, listedUnimplemented w = true ↔ ∀ q ∈ opcodeRows, q.selects w = false) ∧
  ∀ (r : Byte) (s : State), s.status = .running → s.pc + 2 < 4095 → listedUnimplemented (s.wordAt s.pc) = true →
    ∃ t, cycle r s = .next t ∧
      t.status = .faulted { kind := .unimplementedOpcode, pc := s.pc, opcode := some (s.wordAt s.pc) }

/-! ## The cycle (40_cycle.md) -/

/-- R100: a cycle of a running machine whose word at `pc` decodes to `i` executes `i` with `pc` advanced by 2 and the
cycle's arguments set, and the cycle then ends; `step` is that cycle with the free random byte (log 3, log 5). -/
def Obligations.StepRunsDecodedInstruction : Prop :=
  ∀ (r : Byte) (i : Instr) (s : State), s.aboutToRun i →
    cycle r s = onNext State.endCycle (exec i (s.inExecute r)) ∧
    step s = onNext State.endCycle (exec i (s.inExecute (Config.randomByte s.draws)))

/-- The advance is checked first (R102, R225; the spec's decisions D33 and D15): at 4093 and 4094 any word, even an
unimplemented one, gives `IllegalJumpTarget`; and a fetch from 4095 or above, which no reachable state makes, gives
`MemoryOutOfBounds` with no opcode (R109; the spec's decision D30). -/
def Obligations.AdvanceAndFetchFaults : Prop :=
  ∀ (r : Byte) (s : State), s.status = .running →
    ((s.pc = 4093 ∨ s.pc = 4094) → ∃ t, cycle r s = .next t ∧
      t.status = .faulted { kind := .illegalJumpTarget, pc := s.pc, opcode := some (s.wordAt s.pc) }) ∧
    (4095 ≤ s.pc → ∃ t, cycle r s = .next t ∧
      t.status = .faulted { kind := .memoryOutOfBounds, pc := s.pc, opcode := none })

/-- R104: in `WaitingForKey` a cycle does nothing, whatever the random byte, and only a `key_down` or a `stop` leaves
this status. -/
def Obligations.WaitingCycleDoesNothing : Prop :=
  ∀ (s : State) (y : Index), s.status = .waitingForKey y →
    (∀ r, cycle r s = .next s) ∧ step s = .next s ∧
    ∀ x t, transact x s = .next t → t.status ≠ s.status → (∃ k, x = .keyDown k) ∨ x = .stop

/-- `Halted`, `Stopped` and `Faulted` are terminal (R35, R105, R227; the spec's decisions D27, D29): no transaction leaves
the status, and a cycle, a key and a stop do nothing. -/
def Obligations.EndedRunStaysEnded : Prop :=
  ∀ s : State, s.status.live = false →
    (∀ x, ∃ t, transact x s = .next t ∧ t.status = s.status) ∧
    (∀ r, transact (.cycle r) s = .next s) ∧ (∀ k, transact (.keyDown k) s = .next s) ∧
    transact .stop s = .next s ∧ step s = .next s

/-- Every instruction, cycle, step and transaction answers a next state in every state: a fault is the status `Faulted`
(R223; log 1), and no instruction is refused. -/
def Obligations.EveryStepAnswersNext : Prop :=
  (∀ i s, ∃ t, exec i s = .next t) ∧ (∀ r s, ∃ t, cycle r s = .next t) ∧ (∀ s, ∃ t, step s = .next t) ∧
    ∀ x s, ∃ t, transact x s = .next t

/-- R108 (the spec's decision D18): a cycle that executes anything but `Cxkk`, or executes nothing, has the same effect
for every random byte. -/
def Obligations.RandomByteReachesOnlyRnd : Prop :=
  ∀ (r r' : Byte) (s : State), (∀ x kk, decodeWord (s.wordAt s.pc) ≠ .ok (.rndVxKk x kk)) → cycle r s = cycle r' s

/-! ## Control flow (41_flow.md) -/

/-- R120: HALT sets the status to `Halted` with the machine's `HALT_MODE` and changes nothing else. -/
def Obligations.HaltEndsTheRun : Prop :=
  ∀ s : State, exec .halt s = .next { s with status := .halted s.params.haltMode }

/-- R122: JP goes to `nnn`, odd or even, if it is below 4095, and faults at 0xFFF; a jump to itself leaves the machine as
it was, so every later cycle runs it again. -/
def Obligations.JumpGoesToTarget : Prop :=
  ∀ (nnn : Addr12) (s : State),
    EncodesAs (.jpNnn nnn) (0x1000 + nnn.toNat) ∧
    (nnn.toNat < 4095 → exec (.jpNnn nnn) s = .next { s with pc := nnn.toNat }) ∧
    (4095 ≤ nnn.toNat → FaultsWith s .illegalJumpTarget (exec (.jpNnn nnn) s)) ∧
    (s.aboutToRun (.jpNnn nnn) → nnn.toNat = s.pc → BetweenCycles s → ∀ r, cycle r s = .next s)

/-- R123: CALL pushes `pc`, which is `a + 2`, on the stack and jumps to `nnn`; a full stack faults before an illegal
target does (the spec's decision D15). -/
def Obligations.CallPushesAndJumps : Prop :=
  ∀ (nnn : Addr12) (s : State),
    (∀ room : s.SP.val < 16, nnn.toNat < 4095 →
      ∃ t, exec (.callNnn nnn) s = .next t ∧ t.pc = nnn.toNat ∧ t.SP.val = s.SP.val + 1 ∧ t.S[s.SP.val] = s.pc ∧
        (∀ j : Fin 16, j.val ≠ s.SP.val → t.S[j.val] = s.S[j.val]) ∧ SameButFlow s t) ∧
    (s.SP.val = 16 → FaultsWith s .stackOverflow (exec (.callNnn nnn) s)) ∧
    (s.SP.val < 16 → 4095 ≤ nnn.toNat → FaultsWith s .illegalJumpTarget (exec (.callNnn nnn) s))

/-- R121: RET pops the top slot into `pc`, the slot keeping its value (D28); an empty stack faults before an illegal
target does (the spec's decision D15). -/
def Obligations.ReturnPopsTheStack : Prop :=
  ∀ s : State,
    (∀ (some_slot : 0 < s.SP.val) (target : Nat), s.S[s.SP.val - 1]'(by omega) = target →
      (target < 4095 → ∃ t, exec .ret s = .next t ∧ t.pc = target ∧ t.SP.val + 1 = s.SP.val ∧
        (∀ j : Fin 16, t.S[j.val] = s.S[j.val]) ∧ SameButFlow s t) ∧
      (4095 ≤ target → FaultsWith s .illegalJumpTarget (exec .ret s))) ∧
    (s.SP.val = 0 → FaultsWith s .stackUnderflow (exec .ret s))

/-- R124 to R127: the four skips, each with its condition. That a taken skip is a checked write of `pc`, so that a target of
4095 or more faults, is R129 (the spec's decision D33, log 9). -/
def Obligations.SkipsFollowTheirConditions : Prop :=
  ∀ (x y : Index) (kk : Byte) (s : State),
    (EncodesAs (.seVxKk x kk) (0x3000 + x.val * 256 + kk.toNat) ∧ SkipsWhen (.seVxKk x kk) s (s.getV x = kk)) ∧
    (EncodesAs (.sneVxKk x kk) (0x4000 + x.val * 256 + kk.toNat) ∧ SkipsWhen (.sneVxKk x kk) s (s.getV x ≠ kk)) ∧
    (EncodesAs (.seVxVy x y) (0x5000 + x.val * 256 + y.val * 16) ∧ SkipsWhen (.seVxVy x y) s (s.getV x = s.getV y)) ∧
    (EncodesAs (.sneVxVy x y) (0x9000 + x.val * 256 + y.val * 16) ∧ SkipsWhen (.sneVxVy x y) s (s.getV x ≠ s.getV y))

/-- R128: JP V0 goes to the untruncated sum `nnn + V[0]` (the spec's decision D9), or faults at 4095 and above. -/
def Obligations.ComputedJumpAddsV0 : Prop :=
  ∀ (nnn : Addr12) (s : State),
    (nnn.toNat + (s.getV 0).toNat < 4095 →
      exec (.jpV0Nnn nnn) s = .next { s with pc := nnn.toNat + (s.getV 0).toNat }) ∧
    (4095 ≤ nnn.toNat + (s.getV 0).toNat → FaultsWith s .illegalJumpTarget (exec (.jpV0Nnn nnn) s))

/-- Example E3 of 95_test_vectors.md: calls that fit on the stack, made at any legal places, followed by as many returns,
restore the program counters in the opposite order, and the stack pointer; none of them faults, for the run status is kept
throughout. -/
def Obligations.CallsThenReturnsBalance : Prop :=
  ∀ (calls : List (Nat × Addr12)) (s : State), s.SP.val + calls.length ≤ 16 →
    (∀ e ∈ calls, e.1 < 4095 ∧ e.2.toNat < 4095) →
    ∃ t, runCalls calls s = .next t ∧ t.SP.val = s.SP.val + calls.length ∧
      t.status = s.status ∧ returnTargets calls.length t = (calls.map Prod.fst).reverse ∧
      ∃ u, runReturns calls.length t = .next u ∧ u.SP = s.SP ∧ u.status = s.status

/-! ## Registers, arithmetic, logic (42_alu.md) -/

/-- R140 and R142: LD writes the immediate, or the other register, into `V[x]` and nothing else. -/
def Obligations.LoadsWriteVx : Prop :=
  ∀ (x y : Index) (kk : Byte) (s : State),
    (EncodesAs (.ldVxKk x kk) (0x6000 + x.val * 256 + kk.toNat) ∧
      WritesRegisters (.ldVxKk x kk) s fun j => if j = x then kk else s.getV j) ∧
    (EncodesAs (.ldVxVy x y) (0x8000 + x.val * 256 + y.val * 16) ∧
      WritesRegisters (.ldVxVy x y) s fun j => if j = x then s.getV y else s.getV j)

/-- R141: ADD Vx, kk writes the sum modulo 256 into `V[x]` and no flag. -/
def Obligations.AddImmediateWraps : Prop :=
  ∀ (x : Index) (kk : Byte) (s : State),
    EncodesAs (.addVxKk x kk) (0x7000 + x.val * 256 + kk.toNat) ∧
    WritesRegisters (.addVxKk x kk) s fun j =>
      if j = x then BitVec.ofNat 8 (((s.getV x).toNat + kk.toNat) % 256) else s.getV j

/-- R143 to R145: OR, AND, XOR write `V[x]`, bit by bit, and no flag. -/
def Obligations.LogicIsBitwise : Prop :=
  ∀ (x y : Index) (s : State),
    (EncodesAs (.orVxVy x y) (0x8001 + x.val * 256 + y.val * 16) ∧
      WritesRegisters (.orVxVy x y) s fun j =>
        if j = x then BitVec.ofNat 8 ((s.getV x).toNat ||| (s.getV y).toNat) else s.getV j) ∧
    (EncodesAs (.andVxVy x y) (0x8002 + x.val * 256 + y.val * 16) ∧
      WritesRegisters (.andVxVy x y) s fun j =>
        if j = x then BitVec.ofNat 8 ((s.getV x).toNat &&& (s.getV y).toNat) else s.getV j) ∧
    (EncodesAs (.xorVxVy x y) (0x8003 + x.val * 256 + y.val * 16) ∧
      WritesRegisters (.xorVxVy x y) s fun j =>
        if j = x then BitVec.ofNat 8 ((s.getV x).toNat ^^^ (s.getV y).toNat) else s.getV j)

/-- R146: ADD Vx, Vy writes the sum modulo 256 into `V[x]` and the carry into `VF`; with `x = 15` the carry stays (R147,
the spec's decision D7). -/
def Obligations.AddSetsCarry : Prop :=
  ∀ (x y : Index) (s : State) (a b : Nat), (s.getV x).toNat = a → (s.getV y).toNat = b →
    WritesRegisters (.addVxVy x y) s fun j =>
      if j = 15 then (if 256 ≤ a + b then 1#8 else 0#8)
      else if j = x then BitVec.ofNat 8 ((a + b) % 256) else s.getV j

/-- R148 and R150: SUB and SUBN write the difference modulo 256 into `V[x]` and the borrow into `VF`, 1 on borrow; with
`x = 15` the borrow stays (R147, the spec's decision D7). -/
def Obligations.SubtractionsSetBorrow : Prop :=
  ∀ (x y : Index) (s : State) (a b : Nat), (s.getV x).toNat = a → (s.getV y).toNat = b →
    (WritesRegisters (.subVxVy x y) s fun j =>
      if j = 15 then (if a < b then 1#8 else 0#8)
      else if j = x then BitVec.ofNat 8 ((a + 256 - b) % 256) else s.getV j) ∧
    (WritesRegisters (.subnVxVy x y) s fun j =>
      if j = 15 then (if b < a then 1#8 else 0#8)
      else if j = x then BitVec.ofNat 8 ((b + 256 - a) % 256) else s.getV j)

/-- R149 and R151: SHR and SHL shift `V[x]` by one and write the bit shifted out into `VF`, whatever `y` is (R81, the
spec's decision D8); with `x = 15` that bit stays (R147, D7). -/
def Obligations.ShiftsMoveOneBitOut : Prop :=
  ∀ (x y : Index) (s : State) (a : Nat), (s.getV x).toNat = a →
    (WritesRegisters (.shrVx x y) s fun j =>
      if j = 15 then BitVec.ofNat 8 (a % 2) else if j = x then BitVec.ofNat 8 (a / 2) else s.getV j) ∧
    (WritesRegisters (.shlVx x y) s fun j =>
      if j = 15 then BitVec.ofNat 8 (a / 128) else if j = x then BitVec.ofNat 8 (a * 2 % 256) else s.getV j)

/-- R152 (the spec's decision D18): RND writes the cycle's random byte, whatever it is, masked by `kk`, into `V[x]`, and
nothing else of the spec's state; the count of draws is the model's own (log 3). -/
def Obligations.RndMasksTheRandomByte : Prop :=
  ∀ (x : Index) (kk : Byte) (s : State),
    (∃ t, exec (.rndVxKk x kk) s = .next t ∧
      (∀ j, t.getV j = if j = x then s.cyc.random &&& kk else s.getV j) ∧
      SameButRegisters s { t with draws := s.draws }) ∧
    ∀ r : Byte, s.aboutToRun (.rndVxKk x kk) →
      ∃ t, cycle r s = .next t ∧ t.status = .running ∧ t.pc = s.pc + 2 ∧
        ∀ j, t.getV j = if j = x then r &&& kk else s.getV j

/-! ## Address register and memory (43_memory_ops.md) -/

/-- R160: LD I writes `nnn`, zero-extended, into `I` and nothing else. -/
def Obligations.LoadAddressRegister : Prop :=
  ∀ (nnn : Addr12) (s : State),
    EncodesAs (.ldINnn nnn) (0xA000 + nnn.toNat) ∧
    exec (.ldINnn nnn) s = .next { s with I := BitVec.ofNat 16 nnn.toNat }

/-- R161 (the spec's decision D11): ADD I writes the sum modulo 65536 into `I`, no flag, and nothing else. -/
def Obligations.AddToAddressRegisterWraps : Prop :=
  ∀ (x : Index) (s : State),
    exec (.addIVx x) s = .next { s with I := BitVec.ofNat 16 ((s.I.toNat + (s.getV x).toNat) % 65536) }

/-- R162 (C1, the spec's decision D32): LD F points `I` at glyph `V[x]` of the font, `FONT_BASE + 5 * V[x]`,
which with legal parameters fits 16 bits, and faults when the whole `V[x]` exceeds 15. -/
def Obligations.FontAddressOrFault : Prop :=
  ∀ (x : Index) (s : State),
    ((s.getV x).toNat ≤ 15 →
      exec (.ldFVx x) s = .next { s with I := BitVec.ofNat 16 (s.params.fontBase + 5 * (s.getV x).toNat) } ∧
      (s.params.wellFormed = true →
        (BitVec.ofNat 16 (s.params.fontBase + 5 * (s.getV x).toNat)).toNat =
          s.params.fontBase + 5 * (s.getV x).toNat)) ∧
    (15 < (s.getV x).toNat → FaultsWith s .unrepresentableCharacter (exec (.ldFVx x) s))

/-- R163 and R164: LD B stores the three decimal digits of `V[x]` at `I`, hundreds first, and changes no other byte; an
access past 4095 faults (the spec's decision D12). The memory's canonical form is an invariant of the model
(`Obligations.TransactionsKeepInvariant`). -/
def Obligations.BcdStoresThreeDigits : Prop :=
  ∀ (x : Index) (s : State),
    (MemoryCanonical s → dataBase s + 3 ≤ 4096 →
      ∃ t, exec (.ldBVx x) s = .next t ∧
        (t.byteAt (dataBase s)).toNat = (s.getV x).toNat / 100 ∧
        (t.byteAt (dataBase s + 1)).toNat = (s.getV x).toNat / 10 % 10 ∧
        (t.byteAt (dataBase s + 2)).toNat = (s.getV x).toNat % 10 ∧
        (∀ a, a < dataBase s ∨ dataBase s + 3 ≤ a → t.byteAt a = s.byteAt a) ∧ SameButMemory s t) ∧
    (4096 < dataBase s + 3 → FaultsWith s .memoryOutOfBounds (exec (.ldBVx x) s))

/-- R166 (the spec's decisions D12, D13): LD [I], Vx stores `V[0]` to `V[x]` at `I` on, changes no other byte and not `I`;
an access past 4095 faults. -/
def Obligations.BlockStoreWritesRegisters : Prop :=
  ∀ (x : Index) (s : State),
    (MemoryCanonical s → dataBase s + (x.val + 1) ≤ 4096 →
      ∃ t, exec (.ldMemVx x) s = .next t ∧
        (∀ j : Index, j ≤ x → t.byteAt (dataBase s + j.val) = s.getV j) ∧
        (∀ a, a < dataBase s ∨ dataBase s + (x.val + 1) ≤ a → t.byteAt a = s.byteAt a) ∧ SameButMemory s t) ∧
    (4096 < dataBase s + (x.val + 1) → FaultsWith s .memoryOutOfBounds (exec (.ldMemVx x) s))

/-- R167 (the spec's decisions D12, D13): LD Vx, [I] loads `V[0]` to `V[x]` from `I` on and changes nothing else; an
access past 4095 faults. -/
def Obligations.BlockLoadReadsRegisters : Prop :=
  ∀ (x : Index) (s : State),
    (dataBase s + (x.val + 1) ≤ 4096 →
      WritesRegisters (.ldVxMem x) s fun j => if j ≤ x then s.byteAt (dataBase s + j.val) else s.getV j) ∧
    (4096 < dataBase s + (x.val + 1) → FaultsWith s .memoryOutOfBounds (exec (.ldVxMem x) s))

/-- Registers stored by `Fx55` come back by `Fx65`, whatever the registers hold in between (from R166 and R167). The load
reads where the store wrote because `Fx55` leaves `I` as it was: the spec's decision D13 (log 10). -/
def Obligations.BlockStoreThenLoadRestores : Prop :=
  ∀ (x : Index) (s t : State) (V : Vector Byte 16), MemoryCanonical s → exec (.ldMemVx x) s = .next t →
    t.isFaulted = false →
    ∃ u, exec (.ldVxMem x) { t with V := V } = .next u ∧
      ∀ j : Index, u.getV j = if j ≤ x then s.getV j else V[j.val]

/-- Self-modifying code (R62, R260): an instruction that a cycle's `Fx55` stores at the address fetched next is the one
the next cycle runs. -/
def Obligations.StoredInstructionRunsNext : Prop :=
  ∀ (r : Byte) (x : Index) (i : Instr) (s : State), MemoryCanonical s → s.aboutToRun (.ldMemVx x) → 1 ≤ x.val →
    s.I.toNat = s.pc + 2 → s.pc + 4 < 4095 → s.pc + 2 + (x.val + 1) ≤ 4096 →
    decodeWord (joinBytes (s.getV 0) (s.getV 1)) = .ok i →
    ∃ t, cycle r s = .next t ∧ t.aboutToRun i

/-! ## Display (44_display.md) -/

/-- R180: CLS turns every cell off, sets `dirty`, and changes nothing else. -/
def Obligations.ClearTurnsEveryCellOff : Prop :=
  ∀ s : State, EncodesAs .cls 0x00E0 ∧
    ∃ t, exec .cls s = .next t ∧ (∀ r q, cellAt t.D r q = false) ∧ t.dirty = true ∧
      SameRegisters s t ∧ t.I = s.I ∧ t.pc = s.pc ∧ SameStack s t ∧ SameMemory s t ∧ SameControl s t

/-- R181 to R184 (the spec's decisions D19 to D21): DRW toggles exactly the on-screen cells the sprite's set bits cover,
`VF` is 1 iff one of them was lit and else 0, `dirty` is set, nothing else changes; a sprite past 4095 faults. -/
def Obligations.DrawTogglesCoveredCells : Prop :=
  ∀ (x y d : Index) (s : State) (x0 y0 : Nat), (s.getV x).toNat % 64 = x0 → (s.getV y).toNat % 32 = y0 →
    (dataBase s + d.val ≤ 4096 →
      ∃ t, exec (.drwVxVyD x y d) s = .next t ∧
        (∀ r q, SpriteCovers s x0 y0 d.val r q → cellAt t.D r q = !cellAt s.D r q) ∧
        (∀ r q, ¬ SpriteCovers s x0 y0 d.val r q → cellAt t.D r q = cellAt s.D r q) ∧
        ((∃ r q, SpriteCovers s x0 y0 d.val r q ∧ cellAt s.D r q = true) → t.getV 15 = 1#8) ∧
        ((∀ r q, SpriteCovers s x0 y0 d.val r q → cellAt s.D r q = false) → t.getV 15 = 0#8) ∧
        (∀ j, j ≠ 15 → t.getV j = s.getV j) ∧ t.dirty = true ∧
        t.I = s.I ∧ t.pc = s.pc ∧ SameStack s t ∧ SameMemory s t ∧ SameControl s t) ∧
    (4096 < dataBase s + d.val → FaultsWith s .memoryOutOfBounds (exec (.drwVxVyD x y d) s))

/-- R187: drawing the same sprite twice at the same coordinates restores every cell. By R182 and R184 the second draw sets
`VF` to 1 exactly when a set sprite bit falls on a cell that was off before the first draw (log 11, DEDUCED: R187's words
leave out the case of a covered cell already lit); where those cells were all off, that is R187's own condition, some set
sprite bit on-screen (C3). -/
def Obligations.DoubleDrawRestores : Prop :=
  ∀ (x y x' y' d : Index) (s t u : State) (x0 y0 : Nat), (s.getV x).toNat % 64 = x0 → (s.getV y).toNat % 32 = y0 →
    exec (.drwVxVyD x y d) s = .next t → t.isFaulted = false →
    (t.getV x').toNat % 64 = x0 → (t.getV y').toNat % 32 = y0 →
    exec (.drwVxVyD x' y' d) t = .next u → u.isFaulted = false →
    (∀ r q, cellAt u.D r q = cellAt s.D r q) ∧
    (u.getV 15 = 1#8 ↔ ∃ r q, SpriteCovers s x0 y0 d.val r q ∧ cellAt s.D r q = false) ∧
    ((∀ r q, SpriteCovers s x0 y0 d.val r q → cellAt s.D r q = false) →
      (u.getV 15 = 1#8 ↔ ∃ r q, SpriteCovers s x0 y0 d.val r q))

/-- R185: `dirty` is set by every `00E0` and every `Dxyd` that does not fault; no other instruction writes it, and only
the host's `clear_dirty` clears it: a transaction that changes it is that, or a cycle that runs one of the two. -/
def Obligations.DirtyIsSetByDisplayInstructions : Prop :=
  (∀ s t : State, exec .cls s = .next t → t.dirty = true) ∧
  (∀ x y d (s t : State), exec (.drwVxVyD x y d) s = .next t → t.isFaulted = false → t.dirty = true) ∧
  (∀ i (s t : State), exec i s = .next t → t.isFaulted = false → t.dirty ≠ s.dirty →
    i = .cls ∨ ∃ x y d, i = .drwVxVyD x y d) ∧
  (∀ x (s t : State), transact x s = .next t → t.isFaulted = false → t.dirty ≠ s.dirty →
    (x = .clearDirty ∧ t.dirty = false) ∨
      ((∃ r, x = .cycle r) ∧ t.dirty = true ∧ (s.aboutToRun .cls ∨ ∃ vx vy d, s.aboutToRun (.drwVxVyD vx vy d)))) ∧
  ∀ s : State, ∃ t, transact .clearDirty s = .next t ∧ t.dirty = false

/-- R186 and R33: the display is mutated only by `00E0` and `Dxyd`: no other instruction changes a cell, and a host
transaction that changes one is a cycle that runs one of the two. -/
def Obligations.DisplayChangesOnlyByClsAndDrw : Prop :=
  (∀ i (s t : State), exec i s = .next t → t.isFaulted = false → t.D ≠ s.D →
    i = .cls ∨ ∃ x y d, i = .drwVxVyD x y d) ∧
  ∀ x (s t : State), transact x s = .next t → t.isFaulted = false → t.D ≠ s.D →
    (∃ r, x = .cycle r) ∧
      (s.aboutToRun .cls ∨ ∃ vx vy d, s.aboutToRun (.drwVxVyD vx vy d))

/-! ## Key wait (45_input.md) -/

/-- R200: LD Vx, K sets the status to `WaitingForKey(x)` and changes nothing else, `V[x]` included. -/
def Obligations.KeyWaitEntersWaiting : Prop :=
  ∀ (x : Index) (s : State),
    EncodesAs (.ldVxK x) (0xF00A + x.val * 256) ∧
    exec (.ldVxK x) s = .next { s with status := .waitingForKey x }

/-- R202: a key-down writes the key's value into the target register of the wait and the machine runs on. In any other
status it does nothing: R203 (the spec's decision D17, log 13). -/
def Obligations.KeyDownWritesTheTarget : Prop :=
  ∀ (k : Index) (s : State),
    (∀ y, s.status = .waitingForKey y →
      ∃ t, transact (.keyDown k) s = .next t ∧ t.status = .running ∧
        (∀ j, t.getV j = if j = y then BitVec.ofNat 8 k.val else s.getV j) ∧
        SameButRegisters s { t with status := s.status }) ∧
    ((∀ y, s.status ≠ .waitingForKey y) → transact (.keyDown k) s = .next s)

/-- The key wait end to end (R200, R201, R202): a cycle runs `Fx0A` and waits with `pc` at the next instruction and `V[x]`
unwritten; any number of cycles later changes nothing; the first key is written and the machine runs on from there. -/
def Obligations.KeyWaitResumesAfterTheInstruction : Prop :=
  ∀ (r : Byte) (x : Index) (s : State), s.aboutToRun (.ldVxK x) →
    ∃ t, cycle r s = .next t ∧ t.status = .waitingForKey x ∧ t.pc = s.pc + 2 ∧ SameRegisters s t ∧
      ∀ (rs : List Byte) (k : Index), ∃ u, transactAll (rs.map .cycle ++ [.keyDown k]) t = .next u ∧
        u.status = .running ∧ u.pc = s.pc + 2 ∧ u.getV x = BitVec.ofNat 8 k.val

/-- R201 with R35: the run status changes only along the transitions listed, by the transactions that cause them. -/
def Obligations.StatusFollowsTheWaitMachine : Prop :=
  ∀ (x : Transaction) (s t : State), transact x s = .next t → AllowedTransition x s t

/-! ## Faults and host (60_exceptions.md, 10_state.md) -/

/-- R223 and R224 (the spec's decision D14): a fault record names the address of the instruction, the `pc` before the
advance, and the word at it, absent only for a fetch from 4095 or above. -/
def Obligations.FaultRecordNamesTheInstruction : Prop :=
  ∀ (r : Byte) (s t : State) (record : FaultRecord), s.status = .running → cycle r s = .next t →
    t.status = .faulted record →
    record.pc = s.pc ∧ (s.pc ≤ 4094 → record.opcode = some (s.wordAt s.pc)) ∧
      (4095 ≤ s.pc → record.kind = .memoryOutOfBounds ∧ record.opcode = none)

/-- R221: an instruction raises only the fault kinds its row lists. -/
def Obligations.InstructionsRaiseOnlyListedFaults : Prop :=
  ∀ (i : Instr) (s t : State) (record : FaultRecord), s.isFaulted = false → exec i s = .next t →
    t.status = .faulted record → record.kind ∈ faultKinds i

/-- R222: `RegisterIndexOutOfRange` is never raised, although every indexed register access asserts its index (R22). -/
def Obligations.RegisterIndexFaultIsNeverRaised : Prop :=
  ∀ (x : Transaction) (s t : State) (record : FaultRecord), s.isFaulted = false → transact x s = .next t →
    t.status = .faulted record → record.kind ≠ .registerIndexOutOfRange

/-- R232 (the spec's decision D29): `stop` sets the status of a live machine to `Stopped` and changes nothing else; on
an ended run it does nothing. -/
def Obligations.StopEndsALiveRun : Prop :=
  ∀ s : State,
    (s.status.live = true → transact .stop s = .next { s with status := .stopped }) ∧
    (s.status.live = false → transact .stop s = .next s)

/-- R41 and R43 (the spec's decision D1): `read_reg` and `read_status` answer the register and the status and change
nothing. -/
def Obligations.ReadersChangeNothing : Prop :=
  ∀ (i : Index) (s : State),
    transact (.readReg i) s = .next s ∧ answer (.readReg i) s = .register s.V[i.val] ∧
    transact .readStatus s = .next s ∧ answer .readStatus s = .status s.status

/-- R42: `snapshot` answers the 2048 cells in row-major order and the dirty flag and changes nothing; `clear_dirty` sets
`dirty` to false and changes nothing else. -/
def Obligations.SnapshotAndClearDirty : Prop :=
  ∀ s : State,
    transact .snapshot s = .next s ∧
    (∃ cells, answer .snapshot s = .display cells s.dirty ∧
      ∀ (r : Fin 32) (q : Fin 64), cells[r.val * 64 + q.val]'(by omega) = cellAt s.D r q) ∧
    transact .clearDirty s = .next { s with dirty := false }

/-! ## Reset (70_reset_and_hazards.md) -/

/-- R250 to R257 (the spec's decisions D5, D6, D24; log 4, log 7): construction with legal parameters and an image that
fits writes the font, then the image, over zeros, with registers, stack slots and display at zero and off; an image that
does not fit gives no machine. -/
def Obligations.ConstructLaysOutMemory : Prop :=
  ∀ (image : List Byte) (p : Params), p.wellFormed = true →
    (p.programBase + image.length ≤ 4096 →
      ∃ s, construct image p = some s ∧ s.pc = p.programBase ∧ s.status = .running ∧ s.params = p ∧ s.SP.val = 0 ∧
        (∀ j : Fin 16, s.S[j.val] = 0) ∧
        (∀ j, s.getV j = 0#8) ∧ s.I = 0#16 ∧ (∀ r q, cellAt s.D r q = false) ∧ s.dirty = false ∧
        (∀ k, k < image.length → s.byteAt (p.programBase + k) = image.getD k 0#8) ∧
        (∀ k : Fin 80, s.byteAt (p.fontBase + k.val) = p.fontData[k.val]) ∧
        ∀ a, (a < p.programBase ∨ p.programBase + image.length ≤ a) → (a < p.fontBase ∨ p.fontBase + 80 ≤ a) →
          s.byteAt a = 0#8) ∧
    (4096 < p.programBase + image.length → construct image p = none)

/-- R252 to R256 and vector RST-1: the reset state is construction with the default parameters and an empty image; its
registers, stack, display and dirty flag are the spec's decisions D5 and D6 (log 4). -/
def Obligations.ResetStateIsTheSpecs : Prop :=
  construct [] Config.defaults = some State.reset ∧ State.reset.pc = 0x200 ∧ State.reset.SP.val = 0 ∧
    State.reset.status = .running ∧ (∀ j, State.reset.getV j = 0#8) ∧ State.reset.I = 0#16 ∧
    (∀ j : Fin 16, State.reset.S[j.val] = 0) ∧ (∀ r q, cellAt State.reset.D r q = false) ∧ State.reset.dirty = false ∧
    State.reset.bytesAt 0x000 5 = [0xF0, 0x90, 0x90, 0x90, 0xF0] ∧
    State.reset.bytesAt 0x04B 5 = [0xF0, 0x80, 0xF0, 0x80, 0x80] ∧ State.reset.byteAt 0x050 = 0#8 ∧
    State.reset.byteAt 0x200 = 0#8

/-- The invariant holds at reset. -/
def Obligations.ResetMeetsInvariant : Prop := Invariant State.reset

/-! ## Invariants and whole-machine rules -/

/-- Every transaction, and so every step, keeps the invariant: `pc` leaves a two-byte window while the machine is live
(R25), the stack holds legal targets (R28), memory stays canonical and inside 4096 bytes, no cycle is left in progress,
the parameters stay legal. -/
def Obligations.TransactionsKeepInvariant : Prop :=
  (∀ s t : State, Invariant s → step s = .next t → Invariant t) ∧
  ∀ (x : Transaction) (s t : State), Invariant s → transact x s = .next t → Invariant t

/-- R25 for every machine: after any sequence of transactions on any constructed machine, the invariant holds; so while
it is live a fetch cannot fault (R109). -/
def Obligations.ReachableStatesMeetInvariant : Prop :=
  ∀ (image : List Byte) (p : Params) (xs : List Transaction) (s t : State), construct image p = some s →
    transactAll xs s = .next t → Invariant t ∧ (t.status.live = true → fetch t = .ok (t.wordAt t.pc))

/-- The parameters a machine was constructed with never change (R250). -/
def Obligations.ParametersNeverChange : Prop :=
  (∀ (x : Transaction) (s t : State), transact x s = .next t → t.params = s.params) ∧
  ∀ s t : State, step s = .next t → t.params = s.params

/-- R38, R21 and the table of 10_state.md section 7: an instruction changes only the registers it names as its
destination, and `VF` if it is one of the six flag writers, which write 0 or 1. -/
def Obligations.RegistersChangeOnlyAsNamed : Prop :=
  (∀ (i : Instr) (s t : State) (j : Index), exec i s = .next t → t.isFaulted = false → t.getV j ≠ s.getV j →
    writtenRegisters i j = true) ∧
  ∀ (i : Instr) (s t : State), writesFlag i → exec i s = .next t → t.isFaulted = false →
    t.getV 15 = 0#8 ∨ t.getV 15 = 1#8

/-- R63: memory is mutated only through `Fx33` and `Fx55`: a transaction after which some byte reads otherwise is a cycle
that runs one of the two. -/
def Obligations.OnlyStoresChangeMemory : Prop :=
  ∀ (x : Transaction) (s t : State) (a : Nat), transact x s = .next t → t.isFaulted = false →
    t.byteAt a ≠ s.byteAt a → (∃ r, x = .cycle r) ∧ ∃ vx, s.aboutToRun (.ldBVx vx) ∨ s.aboutToRun (.ldMemVx vx)

/-- R27, R28 and R102: `I` is written only by `Annn`, `Fx1E`, `Fx29`; the call stack only by `2nnn` (slots and pointer) and
`00EE` (pointer); `pc`, beyond the cycle's advance, only by returns, jumps, calls and skips. -/
def Obligations.ControlStateHasItsWriters : Prop :=
  ∀ (i : Instr) (s t : State), exec i s = .next t → t.isFaulted = false →
    (t.I ≠ s.I → (∃ n, i = .ldINnn n) ∨ ∃ x, i = .addIVx x ∨ i = .ldFVx x) ∧
    (t.S ≠ s.S → ∃ n, i = .callNnn n) ∧
    (t.SP ≠ s.SP → i = .ret ∨ ∃ n, i = .callNnn n) ∧
    (t.pc ≠ s.pc → writesPc i)

/-- The model's own representation (20_memory.md R60 gives only what reads return): canonical memories that read alike at
every address are equal data. -/
def Obligations.CanonicalMemoriesAreExtensional : Prop :=
  ∀ (p : Params) (m m' : Memory), m.wf p = true → m'.wf p = true → (∀ a, m.read p a = m'.read p a) → m = m'
end

