-- ==== Sys2Proof/Laws/Decode.lean ====
section
/-! SUPPORT. Laws/Decode.lean: fields and encodings as numbers, so that facts about them are linear arithmetic. -/

namespace Sys2Proof

/-! ### The fields of a word as numbers (R71) -/

theorem fieldsOf_c (w : Word) : (fieldsOf w).c.toNat = w.toNat / 4096 := by
  have := w.isLt
  simp only [fieldsOf, BitVec.extractLsb'_toNat, Nat.shiftRight_eq_div_pow]
  omega

theorem fieldsOf_x (w : Word) : (fieldsOf w).x.toNat = w.toNat / 256 % 16 := by
  simp only [fieldsOf, BitVec.extractLsb'_toNat, Nat.shiftRight_eq_div_pow]

theorem fieldsOf_y (w : Word) : (fieldsOf w).y.toNat = w.toNat / 16 % 16 := by
  simp only [fieldsOf, BitVec.extractLsb'_toNat, Nat.shiftRight_eq_div_pow]

theorem fieldsOf_d (w : Word) : (fieldsOf w).d.toNat = w.toNat % 16 := by
  simp [fieldsOf, BitVec.extractLsb'_toNat]

theorem fieldsOf_nnn (w : Word) : (fieldsOf w).nnn.toNat = w.toNat % 4096 := by
  simp [fieldsOf, BitVec.extractLsb'_toNat]

theorem fieldsOf_kk (w : Word) : (fieldsOf w).kk.toNat = w.toNat % 256 := by
  simp [fieldsOf, BitVec.extractLsb'_toNat]

/-! ### Encodings as numbers (R70) -/

theorem append_toNat {m n : Nat} (a : BitVec m) (b : BitVec n) : (a ++ b).toNat = a.toNat * 2 ^ n + b.toNat := by
  rw [BitVec.toNat_append, ← Nat.shiftLeft_add_eq_or_of_lt b.isLt, Nat.shiftLeft_eq]

@[simp] theorem nibble_toNat (n : Index) : (nibble n).toNat = n.val := rfl

theorem encodeXkk_toNat (c : BitVec 4) (x : Index) (kk : Byte) :
    (encodeXkk c x kk).toNat = c.toNat * 4096 + x.val * 256 + kk.toNat := by
  simp only [encodeXkk, append_toNat, nibble_toNat]
  omega

theorem encodeNnn_toNat (c : BitVec 4) (nnn : Addr12) : (encodeNnn c nnn).toNat = c.toNat * 4096 + nnn.toNat := by
  simp only [encodeNnn, append_toNat]
  omega

theorem encodeXyd_toNat (c : BitVec 4) (x y : Index) (d : BitVec 4) :
    (encodeXyd c x y d).toNat = c.toNat * 4096 + x.val * 256 + y.val * 16 + d.toNat := by
  simp only [encodeXyd, append_toNat, nibble_toNat]
  omega

/-! ### The fields of an encoding -/

theorem fieldsOf_encodeXkk (c : BitVec 4) (x : Index) (kk : Byte) :
    (fieldsOf (encodeXkk c x kk)).c = c ∧ (fieldsOf (encodeXkk c x kk)).x.toFin = x ∧
      (fieldsOf (encodeXkk c x kk)).kk = kk := by
  have hc := c.isLt
  have hx := x.isLt
  have hk := kk.isLt
  refine ⟨BitVec.eq_of_toNat_eq ?_, Fin.ext ?_, BitVec.eq_of_toNat_eq ?_⟩
  · rw [fieldsOf_c, encodeXkk_toNat]; omega
  · change (fieldsOf (encodeXkk c x kk)).x.toNat = x.val
    rw [fieldsOf_x, encodeXkk_toNat]; omega
  · rw [fieldsOf_kk, encodeXkk_toNat]; omega

theorem fieldsOf_encodeNnn (c : BitVec 4) (nnn : Addr12) :
    (fieldsOf (encodeNnn c nnn)).c = c ∧ (fieldsOf (encodeNnn c nnn)).nnn = nnn := by
  have hc := c.isLt
  have hn := nnn.isLt
  refine ⟨BitVec.eq_of_toNat_eq ?_, BitVec.eq_of_toNat_eq ?_⟩
  · rw [fieldsOf_c, encodeNnn_toNat]; omega
  · rw [fieldsOf_nnn, encodeNnn_toNat]; omega

theorem fieldsOf_encodeXyd (c : BitVec 4) (x y : Index) (d : BitVec 4) :
    (fieldsOf (encodeXyd c x y d)).c = c ∧ (fieldsOf (encodeXyd c x y d)).x.toFin = x ∧
      (fieldsOf (encodeXyd c x y d)).y.toFin = y ∧ (fieldsOf (encodeXyd c x y d)).d = d := by
  have hc := c.isLt
  have hx := x.isLt
  have hy := y.isLt
  have hd := d.isLt
  refine ⟨BitVec.eq_of_toNat_eq ?_, Fin.ext ?_, Fin.ext ?_, BitVec.eq_of_toNat_eq ?_⟩
  · rw [fieldsOf_c, encodeXyd_toNat]; omega
  · change (fieldsOf (encodeXyd c x y d)).x.toNat = x.val
    rw [fieldsOf_x, encodeXyd_toNat]; omega
  · change (fieldsOf (encodeXyd c x y d)).y.toNat = y.val
    rw [fieldsOf_y, encodeXyd_toNat]; omega
  · rw [fieldsOf_d, encodeXyd_toNat]; omega

/-! ### Bytes of a word (R53) -/

theorem joinBytes_toNat (hi lo : Byte) : (joinBytes hi lo).toNat = hi.toNat * 256 + lo.toNat := by
  simp only [joinBytes, append_toNat]
  omega

@[simp] theorem joinBytes_high_low (w : Word) : joinBytes (highByte w) (lowByte w) = w := by
  apply BitVec.eq_of_toNat_eq
  have := w.isLt
  rw [joinBytes_toNat]
  simp only [highByte, lowByte, BitVec.extractLsb'_toNat, Nat.shiftRight_eq_div_pow]
  omega

/-! ### Masks of the opcode map (R74): a mask keeps the fixed nibbles -/

theorem bit_class (a : BitVec 4) (b : Addr12) (k : Nat) (hk : k < 16) :
    (a ++ b : Word)[k] = if h : k < 12 then b[k] else a[k - 12] := BitVec.getElem_append (x := a) (y := b) hk

theorem bit_low (b : Byte) (d : BitVec 4) (k : Nat) (hk : k < 12) :
    (b ++ d : Addr12)[k] = if h : k < 4 then d[k] else b[k - 4] := BitVec.getElem_append (x := b) (y := d) hk

theorem bit_kk (b : BitVec 4) (kk : Byte) (k : Nat) (hk : k < 12) :
    (b ++ kk : Addr12)[k] = if h : k < 8 then kk[k] else b[k - 8] := BitVec.getElem_append (x := b) (y := kk) hk

theorem mask_class (w : Word) (c : BitVec 4) (h : (fieldsOf w).c = c) :
    OpcodeRow.selects ⟨0xF000#16, c ++ 0x000#12⟩ w = true := by
  subst h
  simp only [OpcodeRow.selects, fieldsOf, beq_iff_eq]
  ext k hk
  rw [BitVec.getElem_and, bit_class]
  rcases (by omega : k < 12 ∨ 12 ≤ k) with h | h
  · have : (0xF000#16)[k] = false := by revert h; revert k; decide
    simp [h, this]
  · have : (0xF000#16)[k] = true := by revert h; revert k; decide
    simp [this, show ¬ k < 12 by omega, show 12 + (k - 12) = k by omega, BitVec.getLsbD_eq_getElem hk]

theorem mask_class_low (w : Word) (c d : BitVec 4) (hc : (fieldsOf w).c = c) (hd : (fieldsOf w).d = d) :
    OpcodeRow.selects ⟨0xF00F#16, c ++ (0x00#8 ++ d : Addr12)⟩ w = true := by
  subst hc hd
  simp only [OpcodeRow.selects, fieldsOf, beq_iff_eq]
  ext k hk
  rw [BitVec.getElem_and, bit_class]
  rcases (by omega : k < 4 ∨ (4 ≤ k ∧ k < 12) ∨ 12 ≤ k) with h | h | h
  · have : (0xF00F#16)[k] = true := by revert h; revert k; decide
    simp [h, this, show k < 12 by omega, bit_low, BitVec.getLsbD_eq_getElem hk]
  · have : (0xF00F#16)[k] = false := by revert h; revert k; decide
    simp [h.2, show ¬ k < 4 by omega, bit_low, this]
  · have : (0xF00F#16)[k] = true := by revert h; revert k; decide
    simp [this, show ¬ k < 12 by omega, show 12 + (k - 12) = k by omega, BitVec.getLsbD_eq_getElem hk]

theorem mask_class_kk (w : Word) (c : BitVec 4) (kk : Byte) (hc : (fieldsOf w).c = c) (hk' : (fieldsOf w).kk = kk) :
    OpcodeRow.selects ⟨0xF0FF#16, c ++ (0x0#4 ++ kk : Addr12)⟩ w = true := by
  subst hc hk'
  simp only [OpcodeRow.selects, fieldsOf, beq_iff_eq]
  ext k hk
  rw [BitVec.getElem_and, bit_class]
  rcases (by omega : k < 8 ∨ (8 ≤ k ∧ k < 12) ∨ 12 ≤ k) with h | h | h
  · have : (0xF0FF#16)[k] = true := by revert h; revert k; decide
    simp [h, this, show k < 12 by omega, bit_kk, BitVec.getLsbD_eq_getElem hk]
  · have : (0xF0FF#16)[k] = false := by revert h; revert k; decide
    simp [h.2, show ¬ k < 8 by omega, bit_kk, this]
  · have : (0xF0FF#16)[k] = true := by revert h; revert k; decide
    simp [this, show ¬ k < 12 by omega, show 12 + (k - 12) = k by omega, BitVec.getLsbD_eq_getElem hk]

theorem mask_F000_toNat (w : Word) : (w &&& 0xF000#16).toNat = w.toNat / 4096 * 4096 := by
  have h := beq_iff_eq.1 (mask_class w _ rfl)
  rw [h, append_toNat, fieldsOf_c]
  simp

theorem mask_F00F_toNat (w : Word) : (w &&& 0xF00F#16).toNat = w.toNat / 4096 * 4096 + w.toNat % 16 := by
  have h := beq_iff_eq.1 (mask_class_low w _ _ rfl rfl)
  rw [h, append_toNat, append_toNat, fieldsOf_c, fieldsOf_d]
  simp

theorem mask_F0FF_toNat (w : Word) : (w &&& 0xF0FF#16).toNat = w.toNat / 4096 * 4096 + w.toNat % 256 := by
  have h := beq_iff_eq.1 (mask_class_kk w _ _ rfl rfl)
  rw [h, append_toNat, append_toNat, fieldsOf_c, fieldsOf_kk]
  simp

/-- A row with a class mask selects by the class nibble. -/
theorem selects_F000 (w q : Word) : OpcodeRow.selects ⟨0xF000, q⟩ w = true ↔ w.toNat / 4096 * 4096 = q.toNat := by
  change (w &&& 0xF000#16 == q) = true ↔ _
  rw [beq_iff_eq, ← BitVec.toNat_inj, mask_F000_toNat]

/-- A row with mask `F00F` selects by the class and low nibbles. -/
theorem selects_F00F (w q : Word) :
    OpcodeRow.selects ⟨0xF00F, q⟩ w = true ↔ w.toNat / 4096 * 4096 + w.toNat % 16 = q.toNat := by
  change (w &&& 0xF00F#16 == q) = true ↔ _
  rw [beq_iff_eq, ← BitVec.toNat_inj, mask_F00F_toNat]

/-- A row with mask `F0FF` selects by the class nibble and the low byte. -/
theorem selects_F0FF (w q : Word) :
    OpcodeRow.selects ⟨0xF0FF, q⟩ w = true ↔ w.toNat / 4096 * 4096 + w.toNat % 256 = q.toNat := by
  change (w &&& 0xF0FF#16 == q) = true ↔ _
  rw [beq_iff_eq, ← BitVec.toNat_inj, mask_F0FF_toNat]

/-- A row with the full mask selects one word. -/
theorem selects_FFFF (w q : Word) : OpcodeRow.selects ⟨0xFFFF, q⟩ w = true ↔ w = q := by
  change (w &&& 0xFFFF#16 == q) = true ↔ _
  rw [beq_iff_eq, show w &&& 0xFFFF#16 = w from BitVec.and_allOnes]

/-! ### Decoding a word -/

theorem decodeWord_ok_iff (w : Word) (i : Instr) : decodeWord w = .ok i ↔ decodeMap w = some i := by
  unfold decodeWord
  cases decodeMap w <;> simp

theorem decodeWord_error_iff (w : Word) : decodeWord w = .error (.unimplementedOpcode w) ↔ decodeMap w = none := by
  unfold decodeWord
  cases decodeMap w <;> simp

/-- The decoder answers an instruction or the named rejection of that very word. -/
theorem decodeWord_cases (w : Word) :
    (∃ i, decodeWord w = .ok i) ∨ decodeWord w = .error (.unimplementedOpcode w) := by
  unfold decodeWord
  cases decodeMap w <;> simp

@[simp] theorem decodeBytes_encodeBytes (i : Instr) (rest : List Byte) :
    decodeBytes (encodeBytes i ++ rest) =
      match decodeWord (encode i) with
      | .ok j    => .ok (j, rest)
      | .error r => .error r := by
  cases h : decodeWord (encode i) <;> simp [encodeBytes, decodeBytes, joinBytes_high_low, h]

end Sys2Proof
end

