-- ==== Sys2Proof/Laws/State.lean ====
section
/-! SUPPORT. Laws/State.lean: one lemma per field per update of the state, and what a register, a byte and a status read
after each update. -/

namespace Sys2Proof.Machine.State

variable (s : State)

/-! ### withI -/

@[simp] theorem withI_V (a : Word) : (s.withI a).V = s.V := rfl
@[simp] theorem withI_I (a : Word) : (s.withI a).I = a := rfl
@[simp] theorem withI_pc (a : Word) : (s.withI a).pc = s.pc := rfl
@[simp] theorem withI_S (a : Word) : (s.withI a).S = s.S := rfl
@[simp] theorem withI_SP (a : Word) : (s.withI a).SP = s.SP := rfl
@[simp] theorem withI_mem (a : Word) : (s.withI a).mem = s.mem := rfl
@[simp] theorem withI_D (a : Word) : (s.withI a).D = s.D := rfl
@[simp] theorem withI_dirty (a : Word) : (s.withI a).dirty = s.dirty := rfl
@[simp] theorem withI_status (a : Word) : (s.withI a).status = s.status := rfl
@[simp] theorem withI_params (a : Word) : (s.withI a).params = s.params := rfl
@[simp] theorem withI_cyc (a : Word) : (s.withI a).cyc = s.cyc := rfl
@[simp] theorem withI_draws (a : Word) : (s.withI a).draws = s.draws := rfl
@[simp] theorem withI_getV (a : Word) (y : Index) : (s.withI a).getV y = s.getV y := rfl
@[simp] theorem withI_byteAt (a : Word) (addr : Nat) : (s.withI a).byteAt addr = s.byteAt addr := rfl

/-! ### withPc -/

@[simp] theorem withPc_V (n : Nat) : (s.withPc n).V = s.V := rfl
@[simp] theorem withPc_I (n : Nat) : (s.withPc n).I = s.I := rfl
@[simp] theorem withPc_pc (n : Nat) : (s.withPc n).pc = n := rfl
@[simp] theorem withPc_S (n : Nat) : (s.withPc n).S = s.S := rfl
@[simp] theorem withPc_SP (n : Nat) : (s.withPc n).SP = s.SP := rfl
@[simp] theorem withPc_mem (n : Nat) : (s.withPc n).mem = s.mem := rfl
@[simp] theorem withPc_D (n : Nat) : (s.withPc n).D = s.D := rfl
@[simp] theorem withPc_dirty (n : Nat) : (s.withPc n).dirty = s.dirty := rfl
@[simp] theorem withPc_status (n : Nat) : (s.withPc n).status = s.status := rfl
@[simp] theorem withPc_params (n : Nat) : (s.withPc n).params = s.params := rfl
@[simp] theorem withPc_cyc (n : Nat) : (s.withPc n).cyc = s.cyc := rfl
@[simp] theorem withPc_draws (n : Nat) : (s.withPc n).draws = s.draws := rfl
@[simp] theorem withPc_getV (n : Nat) (y : Index) : (s.withPc n).getV y = s.getV y := rfl
@[simp] theorem withPc_byteAt (n : Nat) (addr : Nat) : (s.withPc n).byteAt addr = s.byteAt addr := rfl

/-! ### withStack -/

@[simp] theorem withStack_V (slots : Vector Nat 16) (sp : Fin 17) : (s.withStack slots sp).V = s.V := rfl
@[simp] theorem withStack_I (slots : Vector Nat 16) (sp : Fin 17) : (s.withStack slots sp).I = s.I := rfl
@[simp] theorem withStack_pc (slots : Vector Nat 16) (sp : Fin 17) : (s.withStack slots sp).pc = s.pc := rfl
@[simp] theorem withStack_S (slots : Vector Nat 16) (sp : Fin 17) : (s.withStack slots sp).S = slots := rfl
@[simp] theorem withStack_SP (slots : Vector Nat 16) (sp : Fin 17) : (s.withStack slots sp).SP = sp := rfl
@[simp] theorem withStack_mem (slots : Vector Nat 16) (sp : Fin 17) : (s.withStack slots sp).mem = s.mem := rfl
@[simp] theorem withStack_D (slots : Vector Nat 16) (sp : Fin 17) : (s.withStack slots sp).D = s.D := rfl
@[simp] theorem withStack_dirty (slots : Vector Nat 16) (sp : Fin 17) : (s.withStack slots sp).dirty = s.dirty := rfl
@[simp] theorem withStack_status (slots : Vector Nat 16) (sp : Fin 17) : (s.withStack slots sp).status = s.status := rfl
@[simp] theorem withStack_params (slots : Vector Nat 16) (sp : Fin 17) : (s.withStack slots sp).params = s.params := rfl
@[simp] theorem withStack_cyc (slots : Vector Nat 16) (sp : Fin 17) : (s.withStack slots sp).cyc = s.cyc := rfl
@[simp] theorem withStack_draws (slots : Vector Nat 16) (sp : Fin 17) : (s.withStack slots sp).draws = s.draws := rfl
@[simp] theorem withStack_getV (slots : Vector Nat 16) (sp : Fin 17) (y : Index) : (s.withStack slots sp).getV y = s.getV y := rfl
@[simp] theorem withStack_byteAt (slots : Vector Nat 16) (sp : Fin 17) (addr : Nat) : (s.withStack slots sp).byteAt addr = s.byteAt addr := rfl

/-! ### withMem -/

@[simp] theorem withMem_V (m : Memory) : (s.withMem m).V = s.V := rfl
@[simp] theorem withMem_I (m : Memory) : (s.withMem m).I = s.I := rfl
@[simp] theorem withMem_pc (m : Memory) : (s.withMem m).pc = s.pc := rfl
@[simp] theorem withMem_S (m : Memory) : (s.withMem m).S = s.S := rfl
@[simp] theorem withMem_SP (m : Memory) : (s.withMem m).SP = s.SP := rfl
@[simp] theorem withMem_mem (m : Memory) : (s.withMem m).mem = m := rfl
@[simp] theorem withMem_D (m : Memory) : (s.withMem m).D = s.D := rfl
@[simp] theorem withMem_dirty (m : Memory) : (s.withMem m).dirty = s.dirty := rfl
@[simp] theorem withMem_status (m : Memory) : (s.withMem m).status = s.status := rfl
@[simp] theorem withMem_params (m : Memory) : (s.withMem m).params = s.params := rfl
@[simp] theorem withMem_cyc (m : Memory) : (s.withMem m).cyc = s.cyc := rfl
@[simp] theorem withMem_draws (m : Memory) : (s.withMem m).draws = s.draws := rfl
@[simp] theorem withMem_getV (m : Memory) (y : Index) : (s.withMem m).getV y = s.getV y := rfl

/-! ### withD -/

@[simp] theorem withD_V (d : Display) : (s.withD d).V = s.V := rfl
@[simp] theorem withD_I (d : Display) : (s.withD d).I = s.I := rfl
@[simp] theorem withD_pc (d : Display) : (s.withD d).pc = s.pc := rfl
@[simp] theorem withD_S (d : Display) : (s.withD d).S = s.S := rfl
@[simp] theorem withD_SP (d : Display) : (s.withD d).SP = s.SP := rfl
@[simp] theorem withD_mem (d : Display) : (s.withD d).mem = s.mem := rfl
@[simp] theorem withD_D (d : Display) : (s.withD d).D = d := rfl
@[simp] theorem withD_dirty (d : Display) : (s.withD d).dirty = s.dirty := rfl
@[simp] theorem withD_status (d : Display) : (s.withD d).status = s.status := rfl
@[simp] theorem withD_params (d : Display) : (s.withD d).params = s.params := rfl
@[simp] theorem withD_cyc (d : Display) : (s.withD d).cyc = s.cyc := rfl
@[simp] theorem withD_draws (d : Display) : (s.withD d).draws = s.draws := rfl
@[simp] theorem withD_getV (d : Display) (y : Index) : (s.withD d).getV y = s.getV y := rfl
@[simp] theorem withD_byteAt (d : Display) (addr : Nat) : (s.withD d).byteAt addr = s.byteAt addr := rfl

/-! ### withDirty -/

@[simp] theorem withDirty_V (b : Bool) : (s.withDirty b).V = s.V := rfl
@[simp] theorem withDirty_I (b : Bool) : (s.withDirty b).I = s.I := rfl
@[simp] theorem withDirty_pc (b : Bool) : (s.withDirty b).pc = s.pc := rfl
@[simp] theorem withDirty_S (b : Bool) : (s.withDirty b).S = s.S := rfl
@[simp] theorem withDirty_SP (b : Bool) : (s.withDirty b).SP = s.SP := rfl
@[simp] theorem withDirty_mem (b : Bool) : (s.withDirty b).mem = s.mem := rfl
@[simp] theorem withDirty_D (b : Bool) : (s.withDirty b).D = s.D := rfl
@[simp] theorem withDirty_dirty (b : Bool) : (s.withDirty b).dirty = b := rfl
@[simp] theorem withDirty_status (b : Bool) : (s.withDirty b).status = s.status := rfl
@[simp] theorem withDirty_params (b : Bool) : (s.withDirty b).params = s.params := rfl
@[simp] theorem withDirty_cyc (b : Bool) : (s.withDirty b).cyc = s.cyc := rfl
@[simp] theorem withDirty_draws (b : Bool) : (s.withDirty b).draws = s.draws := rfl
@[simp] theorem withDirty_getV (b : Bool) (y : Index) : (s.withDirty b).getV y = s.getV y := rfl
@[simp] theorem withDirty_byteAt (b : Bool) (addr : Nat) : (s.withDirty b).byteAt addr = s.byteAt addr := rfl

/-! ### withStatus -/

@[simp] theorem withStatus_V (st : Status) : (s.withStatus st).V = s.V := rfl
@[simp] theorem withStatus_I (st : Status) : (s.withStatus st).I = s.I := rfl
@[simp] theorem withStatus_pc (st : Status) : (s.withStatus st).pc = s.pc := rfl
@[simp] theorem withStatus_S (st : Status) : (s.withStatus st).S = s.S := rfl
@[simp] theorem withStatus_SP (st : Status) : (s.withStatus st).SP = s.SP := rfl
@[simp] theorem withStatus_mem (st : Status) : (s.withStatus st).mem = s.mem := rfl
@[simp] theorem withStatus_D (st : Status) : (s.withStatus st).D = s.D := rfl
@[simp] theorem withStatus_dirty (st : Status) : (s.withStatus st).dirty = s.dirty := rfl
@[simp] theorem withStatus_status (st : Status) : (s.withStatus st).status = st := rfl
@[simp] theorem withStatus_params (st : Status) : (s.withStatus st).params = s.params := rfl
@[simp] theorem withStatus_cyc (st : Status) : (s.withStatus st).cyc = s.cyc := rfl
@[simp] theorem withStatus_draws (st : Status) : (s.withStatus st).draws = s.draws := rfl
@[simp] theorem withStatus_getV (st : Status) (y : Index) : (s.withStatus st).getV y = s.getV y := rfl
@[simp] theorem withStatus_byteAt (st : Status) (addr : Nat) : (s.withStatus st).byteAt addr = s.byteAt addr := rfl

/-! ### withCyc -/

@[simp] theorem withCyc_V (c : CycleArgs) : (s.withCyc c).V = s.V := rfl
@[simp] theorem withCyc_I (c : CycleArgs) : (s.withCyc c).I = s.I := rfl
@[simp] theorem withCyc_pc (c : CycleArgs) : (s.withCyc c).pc = s.pc := rfl
@[simp] theorem withCyc_S (c : CycleArgs) : (s.withCyc c).S = s.S := rfl
@[simp] theorem withCyc_SP (c : CycleArgs) : (s.withCyc c).SP = s.SP := rfl
@[simp] theorem withCyc_mem (c : CycleArgs) : (s.withCyc c).mem = s.mem := rfl
@[simp] theorem withCyc_D (c : CycleArgs) : (s.withCyc c).D = s.D := rfl
@[simp] theorem withCyc_dirty (c : CycleArgs) : (s.withCyc c).dirty = s.dirty := rfl
@[simp] theorem withCyc_status (c : CycleArgs) : (s.withCyc c).status = s.status := rfl
@[simp] theorem withCyc_params (c : CycleArgs) : (s.withCyc c).params = s.params := rfl
@[simp] theorem withCyc_cyc (c : CycleArgs) : (s.withCyc c).cyc = c := rfl
@[simp] theorem withCyc_draws (c : CycleArgs) : (s.withCyc c).draws = s.draws := rfl
@[simp] theorem withCyc_getV (c : CycleArgs) (y : Index) : (s.withCyc c).getV y = s.getV y := rfl
@[simp] theorem withCyc_byteAt (c : CycleArgs) (addr : Nat) : (s.withCyc c).byteAt addr = s.byteAt addr := rfl

/-! ### withDraws -/

@[simp] theorem withDraws_V (n : Nat) : (s.withDraws n).V = s.V := rfl
@[simp] theorem withDraws_I (n : Nat) : (s.withDraws n).I = s.I := rfl
@[simp] theorem withDraws_pc (n : Nat) : (s.withDraws n).pc = s.pc := rfl
@[simp] theorem withDraws_S (n : Nat) : (s.withDraws n).S = s.S := rfl
@[simp] theorem withDraws_SP (n : Nat) : (s.withDraws n).SP = s.SP := rfl
@[simp] theorem withDraws_mem (n : Nat) : (s.withDraws n).mem = s.mem := rfl
@[simp] theorem withDraws_D (n : Nat) : (s.withDraws n).D = s.D := rfl
@[simp] theorem withDraws_dirty (n : Nat) : (s.withDraws n).dirty = s.dirty := rfl
@[simp] theorem withDraws_status (n : Nat) : (s.withDraws n).status = s.status := rfl
@[simp] theorem withDraws_params (n : Nat) : (s.withDraws n).params = s.params := rfl
@[simp] theorem withDraws_cyc (n : Nat) : (s.withDraws n).cyc = s.cyc := rfl
@[simp] theorem withDraws_draws (n : Nat) : (s.withDraws n).draws = n := rfl
@[simp] theorem withDraws_getV (n : Nat) (y : Index) : (s.withDraws n).getV y = s.getV y := rfl
@[simp] theorem withDraws_byteAt (n : Nat) (addr : Nat) : (s.withDraws n).byteAt addr = s.byteAt addr := rfl

/-! ### setV -/

@[simp] theorem setV_V (x : Index) (b : Byte) : (s.setV x b).V = s.V.set x.val b := rfl
@[simp] theorem setV_I (x : Index) (b : Byte) : (s.setV x b).I = s.I := rfl
@[simp] theorem setV_pc (x : Index) (b : Byte) : (s.setV x b).pc = s.pc := rfl
@[simp] theorem setV_S (x : Index) (b : Byte) : (s.setV x b).S = s.S := rfl
@[simp] theorem setV_SP (x : Index) (b : Byte) : (s.setV x b).SP = s.SP := rfl
@[simp] theorem setV_mem (x : Index) (b : Byte) : (s.setV x b).mem = s.mem := rfl
@[simp] theorem setV_D (x : Index) (b : Byte) : (s.setV x b).D = s.D := rfl
@[simp] theorem setV_dirty (x : Index) (b : Byte) : (s.setV x b).dirty = s.dirty := rfl
@[simp] theorem setV_status (x : Index) (b : Byte) : (s.setV x b).status = s.status := rfl
@[simp] theorem setV_params (x : Index) (b : Byte) : (s.setV x b).params = s.params := rfl
@[simp] theorem setV_cyc (x : Index) (b : Byte) : (s.setV x b).cyc = s.cyc := rfl
@[simp] theorem setV_draws (x : Index) (b : Byte) : (s.setV x b).draws = s.draws := rfl
@[simp] theorem setV_byteAt (x : Index) (b : Byte) (addr : Nat) : (s.setV x b).byteAt addr = s.byteAt addr := rfl

/-! ### raise -/

@[simp] theorem raise_V (k : Fault) : (s.raise k).V = s.V := rfl
@[simp] theorem raise_I (k : Fault) : (s.raise k).I = s.I := rfl
@[simp] theorem raise_pc (k : Fault) : (s.raise k).pc = s.pc := rfl
@[simp] theorem raise_S (k : Fault) : (s.raise k).S = s.S := rfl
@[simp] theorem raise_SP (k : Fault) : (s.raise k).SP = s.SP := rfl
@[simp] theorem raise_mem (k : Fault) : (s.raise k).mem = s.mem := rfl
@[simp] theorem raise_D (k : Fault) : (s.raise k).D = s.D := rfl
@[simp] theorem raise_dirty (k : Fault) : (s.raise k).dirty = s.dirty := rfl
@[simp] theorem raise_status (k : Fault) : (s.raise k).status = .faulted (s.faultRecord k) := rfl
@[simp] theorem raise_params (k : Fault) : (s.raise k).params = s.params := rfl
@[simp] theorem raise_cyc (k : Fault) : (s.raise k).cyc = s.cyc := rfl
@[simp] theorem raise_draws (k : Fault) : (s.raise k).draws = s.draws := rfl
@[simp] theorem raise_getV (k : Fault) (y : Index) : (s.raise k).getV y = s.getV y := rfl
@[simp] theorem raise_byteAt (k : Fault) (addr : Nat) : (s.raise k).byteAt addr = s.byteAt addr := rfl

/-! ### inExecute -/

@[simp] theorem inExecute_V (r : Byte) : (s.inExecute r).V = s.V := rfl
@[simp] theorem inExecute_I (r : Byte) : (s.inExecute r).I = s.I := rfl
@[simp] theorem inExecute_pc (r : Byte) : (s.inExecute r).pc = s.pc + 2 := rfl
@[simp] theorem inExecute_S (r : Byte) : (s.inExecute r).S = s.S := rfl
@[simp] theorem inExecute_SP (r : Byte) : (s.inExecute r).SP = s.SP := rfl
@[simp] theorem inExecute_mem (r : Byte) : (s.inExecute r).mem = s.mem := rfl
@[simp] theorem inExecute_D (r : Byte) : (s.inExecute r).D = s.D := rfl
@[simp] theorem inExecute_dirty (r : Byte) : (s.inExecute r).dirty = s.dirty := rfl
@[simp] theorem inExecute_status (r : Byte) : (s.inExecute r).status = s.status := rfl
@[simp] theorem inExecute_params (r : Byte) : (s.inExecute r).params = s.params := rfl
@[simp] theorem inExecute_cyc (r : Byte) : (s.inExecute r).cyc = { addr := s.pc, word := some (s.wordAt s.pc), random := r } := rfl
@[simp] theorem inExecute_draws (r : Byte) : (s.inExecute r).draws = s.draws := rfl
@[simp] theorem inExecute_getV (r : Byte) (y : Index) : (s.inExecute r).getV y = s.getV y := rfl
@[simp] theorem inExecute_byteAt (r : Byte) (addr : Nat) : (s.inExecute r).byteAt addr = s.byteAt addr := rfl

/-! ### endCycle -/

@[simp] theorem endCycle_V : s.endCycle.V = s.V := rfl
@[simp] theorem endCycle_I : s.endCycle.I = s.I := rfl
@[simp] theorem endCycle_pc : s.endCycle.pc = s.pc := rfl
@[simp] theorem endCycle_S : s.endCycle.S = s.S := rfl
@[simp] theorem endCycle_SP : s.endCycle.SP = s.SP := rfl
@[simp] theorem endCycle_mem : s.endCycle.mem = s.mem := rfl
@[simp] theorem endCycle_D : s.endCycle.D = s.D := rfl
@[simp] theorem endCycle_dirty : s.endCycle.dirty = s.dirty := rfl
@[simp] theorem endCycle_status : s.endCycle.status = s.status := rfl
@[simp] theorem endCycle_params : s.endCycle.params = s.params := rfl
@[simp] theorem endCycle_cyc : s.endCycle.cyc = CycleArgs.idle := rfl
@[simp] theorem endCycle_draws : s.endCycle.draws = s.draws := rfl
@[simp] theorem endCycle_getV (y : Index) : s.endCycle.getV y = s.getV y := rfl
@[simp] theorem endCycle_byteAt (addr : Nat) : s.endCycle.byteAt addr = s.byteAt addr := rfl

/-! ### Reading a register after writing one -/

theorem getV_setV (x y : Index) (b : Byte) : (s.setV x b).getV y = if y = x then b else s.getV y := by
  by_cases h : y = x
  · simp [getV, setV, h]
  · have h' : x.val ≠ y.val := fun e => h (Fin.ext e.symm)
    simp [getV, setV, h, h']

@[simp] theorem getV_setV_same (x : Index) (b : Byte) : (s.setV x b).getV x = b := by simp [getV_setV]

theorem getV_setV_ne {x y : Index} (b : Byte) (h : y ≠ x) : (s.setV x b).getV y = s.getV y := by
  simp [getV_setV, h]

@[simp] theorem byteAt_withMem (m : Memory) (addr : Nat) : (s.withMem m).byteAt addr = m.read s.params addr := rfl

/-- Two states are equal when their registers, as read, and all other fields are equal. -/
theorem V_ext {V W : Vector Byte 16} (h : ∀ y : Index, V[y.val] = W[y.val]) : V = W := by
  ext k hk
  rw [h ⟨k, hk⟩]

end Sys2Proof.Machine.State
end

