-- ==== Sys2Proof/Laws/Memory.lean ====
section
/-! SUPPORT. Laws/Memory.lean: memory reads after writes, every memory operation keeps the canonical form, and what the
checked accesses answer. -/

namespace Sys2Proof.Machine.Memory

variable {p : Params}

theorem wfFrom_cons {lo a : Nat} {b : Byte} {rest : Memory} :
    wfFrom p lo ((a, b) :: rest) = true ↔
      lo ≤ a ∧ a < Config.memSize ∧ b ≠ resetByte p a ∧ wfFrom p (a + 1) rest = true := by
  simp [wfFrom, and_assoc]

theorem wfFrom_mono {lo lo' : Nat} {m : Memory} (h : wfFrom p lo m = true) (hl : lo' ≤ lo) : wfFrom p lo' m = true := by
  cases m with
  | nil => rfl
  | cons e rest =>
    rw [wfFrom_cons] at h ⊢
    exact ⟨hl.trans h.1, h.2⟩

/-! ### What is listed -/

theorem find_eq_none {lo a : Nat} {m : Memory} (h : wfFrom p lo m = true) (ha : a < lo) : m.find a = none := by
  induction m generalizing lo with
  | nil => rfl
  | cons e rest ih =>
    rw [wfFrom_cons] at h
    have hne : a ≠ e.1 := by omega
    simp only [find, hne, if_false]
    exact ih h.2.2.2 (by omega)

theorem find_insert (a a' : Nat) (b : Byte) (m : Memory) :
    (m.insert a b).find a' = if a' = a then some b else m.find a' := by
  induction m with
  | nil => simp [insert, find]
  | cons e rest ih =>
    obtain ⟨a₁, b₁⟩ := e
    simp only [insert]
    split
    · simp [find]
    · split
      · subst_vars
        by_cases h : a' = a₁ <;> simp [find, h]
      · by_cases h : a' = a₁
        · subst h
          simp_all [find, eq_comm]
        · simp [find, h, ih]

theorem find_erase {lo : Nat} (a a' : Nat) {m : Memory} (h : wfFrom p lo m = true) :
    (m.erase a).find a' = if a' = a then none else m.find a' := by
  induction m generalizing lo with
  | nil => simp [erase, find]
  | cons e rest ih =>
    obtain ⟨a₁, b₁⟩ := e
    rw [wfFrom_cons] at h
    simp only [erase]
    split
    · subst_vars
      by_cases h' : a' = a₁
      · simp [h', find_eq_none h.2.2.2 (Nat.lt_succ_self a₁)]
      · simp [find, h']
    · rename_i hne
      by_cases h' : a' = a₁
      · have : a₁ ≠ a := fun e => hne e.symm
        simp [find, h', this]
      · simp [find, h', ih h.2.2.2]

/-! ### Canonical form -/

theorem wfFrom_insert {lo a : Nat} {b : Byte} {m : Memory} (h : wfFrom p lo m = true) (hl : lo ≤ a)
    (ha : a < Config.memSize) (hb : b ≠ resetByte p a) : wfFrom p lo (m.insert a b) = true := by
  induction m generalizing lo with
  | nil => simp [insert, wfFrom, hl, ha, hb]
  | cons e rest ih =>
    obtain ⟨a₁, b₁⟩ := e
    have h' := wfFrom_cons.1 h
    simp only [insert]
    split
    · exact wfFrom_cons.2 ⟨hl, ha, hb, wfFrom_cons.2 ⟨by omega, h'.2⟩⟩
    · split
      · subst_vars
        exact wfFrom_cons.2 ⟨hl, ha, hb, h'.2.2.2⟩
      · exact wfFrom_cons.2 ⟨h'.1, h'.2.1, h'.2.2.1, ih h'.2.2.2 (by omega)⟩

theorem wfFrom_erase {lo : Nat} (a : Nat) {m : Memory} (h : wfFrom p lo m = true) : wfFrom p lo (m.erase a) = true := by
  induction m generalizing lo with
  | nil => exact h
  | cons e rest ih =>
    obtain ⟨a₁, b₁⟩ := e
    have h' := wfFrom_cons.1 h
    simp only [erase]
    split
    · exact wfFrom_mono h'.2.2.2 (by omega)
    · exact wfFrom_cons.2 ⟨h'.1, h'.2.1, h'.2.2.1, ih h'.2.2.2⟩

/-- Writing one byte keeps the canonical form. -/
theorem wf_write {m : Memory} {a : Nat} (b : Byte) (h : m.wf p = true) (ha : a < Config.memSize) :
    (m.write p a b).wf p = true := by
  unfold write
  split
  · exact wfFrom_erase a h
  · exact wfFrom_insert h (Nat.zero_le a) ha ‹_›

/-- Reading after writing one byte. -/
theorem read_write {m : Memory} (a a' : Nat) (b : Byte) (h : m.wf p = true) :
    (m.write p a b).read p a' = if a' = a then b else m.read p a' := by
  unfold write read
  split
  · subst_vars
    rw [find_erase a a' h]
    by_cases h' : a' = a <;> simp [h']
  · rw [find_insert]
    by_cases h' : a' = a <;> simp [h']

/-- Writing a list of bytes inside memory keeps the canonical form. -/
theorem wf_writeList {m : Memory} {a : Nat} {bs : List Byte} (h : m.wf p = true)
    (ha : a + bs.length ≤ Config.memSize) : (m.writeList p a bs).wf p = true := by
  induction bs generalizing m a with
  | nil => exact h
  | cons b bs ih =>
    simp only [List.length_cons] at ha
    exact ih (wf_write b h (by omega)) (by omega)

/-- Reading after writing a list of bytes inside memory. -/
theorem read_writeList {m : Memory} {a : Nat} {bs : List Byte} (a' : Nat) (h : m.wf p = true)
    (ha : a + bs.length ≤ Config.memSize) :
    (m.writeList p a bs).read p a' =
      if a ≤ a' ∧ a' < a + bs.length then bs.getD (a' - a) 0#8 else m.read p a' := by
  induction bs generalizing m a with
  | nil => simp [writeList, show ¬ (a ≤ a' ∧ a' < a) by omega]
  | cons b bs ih =>
    simp only [List.length_cons] at ha
    simp only [writeList, List.length_cons]
    rw [ih (wf_write b h (by omega)) (by omega), read_write _ _ _ h]
    by_cases h1 : a' = a
    · subst h1
      simp [show ¬ (a' + 1 ≤ a') by omega]
    · by_cases h2 : a + 1 ≤ a' ∧ a' < a + 1 + bs.length
      · rw [if_pos h2, if_pos (by omega), show a' - a = (a' - (a + 1)) + 1 by omega, List.getD_cons_succ]
      · rw [if_neg h2, if_neg h1, if_neg (by omega)]

theorem wf_nil : wf p [] = true := rfl

theorem read_nil (a : Nat) : read p [] a = resetByte p a := rfl

end Sys2Proof.Machine.Memory

namespace Sys2Proof.Machine

/-! ### Lists of bytes at consecutive addresses -/

@[simp] theorem bytesAt_length (s : State) (a n : Nat) : (s.bytesAt a n).length = n := by
  induction n generalizing a with
  | zero => rfl
  | succ n ih => simp [State.bytesAt, ih]

theorem bytesAt_getElem (s : State) (a n k : Nat) (h : k < (s.bytesAt a n).length) :
    (s.bytesAt a n)[k] = s.byteAt (a + k) := by
  induction n generalizing a k with
  | zero => simp [State.bytesAt] at h
  | succ n ih =>
    cases k with
    | zero => rfl
    | succ k =>
      simp only [State.bytesAt, List.getElem_cons_succ]
      rw [ih, show a + 1 + k = a + (k + 1) by omega]

theorem bytesAt_getD (s : State) (a n k : Nat) (h : k < n) : (s.bytesAt a n).getD k 0#8 = s.byteAt (a + k) := by
  rw [List.getD_eq_getElem _ _ (by simpa using h), bytesAt_getElem]

/-! ### The checked accesses (00_scope.md R16, 20_memory.md R52) -/

theorem inMemory_iff (a n : Nat) : inMemory a n = true ↔ a + n ≤ 4096 := decide_eq_true_iff

/-- A checked read answers the bytes, or `MemoryOutOfBounds`. -/
theorem memRead_eq (a n : Nat) (s : State) :
    memRead a n s = if a + n ≤ 4096 then .ok (s.bytesAt a n) else .error .memoryOutOfBounds := by
  by_cases h : a + n ≤ 4096 <;> simp [memRead, inMemory, Config.memSize, h]

/-- A checked write answers the state with the bytes written, or `MemoryOutOfBounds`. -/
theorem memWrite_eq (a : Nat) (bs : List Byte) (s : State) :
    memWrite a bs s =
      if a + bs.length ≤ 4096 then .ok (s.withMem (s.mem.writeList s.params a bs)) else .error .memoryOutOfBounds := by
  by_cases h : a + bs.length ≤ 4096 <;> simp [memWrite, inMemory, Config.memSize, h]

/-- What each byte reads as after an admitted write of a list. -/
theorem byteAt_withMem_writeList {s : State} {a : Nat} {bs : List Byte} (a' : Nat) (hm : MemoryCanonical s)
    (h : a + bs.length ≤ 4096) :
    (s.withMem (s.mem.writeList s.params a bs)).byteAt a' =
      if a ≤ a' ∧ a' < a + bs.length then bs.getD (a' - a) 0#8 else s.byteAt a' := by
  rw [State.byteAt_withMem]
  exact Memory.read_writeList a' hm h

end Sys2Proof.Machine
end

