-- ==== Sys2Proof/Laws/Ops.lean ====
section
/-! SUPPORT. Laws/Ops.lean: what each shared operation answers: taking a fault, the checked `pc` write, the skip, the
stack, and register lists. -/

namespace Sys2Proof.Machine

/-! ### Taking a fault -/

@[simp] theorem attempt_ok (s t : State) : attempt s (.ok t) = .next t := rfl

@[simp] theorem attempt_error (s : State) (k : Fault) : attempt s (.error k) = .next (s.raise k) := rfl

/-- An instruction's pseudocode ends in its result or in a fault taken from the state it started in. -/
theorem attempt_cases {s t : State} {body : Except Fault State} (h : attempt s body = .next t) :
    body = .ok t ∨ ∃ k, body = .error k ∧ t = s.raise k := by
  cases body with
  | ok u => exact .inl (by simpa using h)
  | error k => exact .inr ⟨k, rfl, by simpa using h.symm⟩

/-- `attempt` always answers a next state. -/
theorem attempt_next (s : State) (body : Except Fault State) : ∃ t, attempt s body = .next t := by
  cases body <;> simp

@[simp] theorem raise_isFaulted (s : State) (k : Fault) : (s.raise k).isFaulted = true := rfl

/-- A raise is a fault of its kind by the cycle in progress. -/
theorem faultsWith_raise (s : State) (k : Fault) : FaultsWith s k (.next (s.raise k)) := ⟨_, rfl, rfl⟩

theorem faultsWith_attempt_error (s : State) (k : Fault) : FaultsWith s k (attempt s (.error k)) := faultsWith_raise s k

/-- An unfaulted result of `attempt` is the result of its body. -/
theorem attempt_unfaulted {s t : State} {body : Except Fault State} (h : attempt s body = .next t)
    (ht : t.isFaulted = false) : body = .ok t := by
  rcases attempt_cases h with h | ⟨k, -, rfl⟩
  · exact h
  · simp at ht

/-! ### Bind of pseudocode steps -/

@[simp] theorem bind_ok {α β : Type} (a : α) (f : α → Except Fault β) : (Except.ok a >>= f) = f a := rfl

@[simp] theorem bind_error {α β : Type} (k : Fault) (f : α → Except Fault β) :
    ((Except.error k : Except Fault α) >>= f) = .error k := rfl

theorem bind_eq_ok {α β : Type} {x : Except Fault α} {f : α → Except Fault β} {b : β} :
    (x >>= f) = .ok b ↔ ∃ a, x = .ok a ∧ f a = .ok b := by
  cases x <;> simp

theorem bind_eq_error {α β : Type} {x : Except Fault α} {f : α → Except Fault β} {k : Fault} :
    (x >>= f) = .error k ↔ x = .error k ∨ ∃ a, x = .ok a ∧ f a = .error k := by
  cases x <;> simp

/-! ### Program counter (00_scope.md R17) -/

theorem setPc_legal {t : Nat} (s : State) (h : t < 4095) : setPc t s = .ok (s.withPc t) := by
  simp [setPc, show ¬ 4095 ≤ t by omega]

theorem setPc_illegal {t : Nat} (s : State) (h : 4095 ≤ t) : setPc t s = .error .illegalJumpTarget := by
  simp [setPc, h]

theorem setPc_eq_ok {t : Nat} {s u : State} : setPc t s = .ok u ↔ t < 4095 ∧ u = s.withPc t := by
  by_cases h : t < 4095
  · simp [setPc_legal s h, h, eq_comm]
  · simp [setPc_illegal s (Nat.le_of_not_lt h), h]

theorem setPc_eq_error {t : Nat} {s : State} {k : Fault} :
    setPc t s = .error k ↔ 4095 ≤ t ∧ k = .illegalJumpTarget := by
  by_cases h : t < 4095
  · simp [setPc_legal s h, h]
  · simp [setPc_illegal s (Nat.le_of_not_lt h), Nat.le_of_not_lt h, eq_comm]

@[simp] theorem skipIf_false (s : State) : skipIf false s = .ok s := rfl

@[simp] theorem skipIf_true (s : State) : skipIf true s = setPc (s.pc + 2) s := rfl

/-! ### Call stack (10_state.md R30, R31) -/

theorem push_room {s : State} (v : Nat) (h : s.SP.val < 16) :
    push v s = .ok (s.withStack (s.S.set s.SP.val v) ⟨s.SP.val + 1, by omega⟩) := by
  simp [push, h]

theorem push_full {s : State} (v : Nat) (h : ¬ s.SP.val < 16) : push v s = .error .stackOverflow := by
  simp [push, h]

theorem pop_some {s : State} (h : s.SP.val ≠ 0) :
    pop s = .ok (s.S[s.SP.val - 1]'(by omega), s.withStack s.S ⟨s.SP.val - 1, by omega⟩) := by
  simp [pop, h]

theorem pop_empty {s : State} (h : s.SP.val = 0) : pop s = .error .stackUnderflow := by
  simp [pop, h]

/-! ### Register lists (43_memory_ops.md R166, R167) -/

theorem readRegAt_lt {s : State} {k : Nat} (h : k < 16) : readRegAt k s = .ok (s.getV ⟨k, h⟩) := by
  simp [readRegAt, h]

theorem writeRegAt_lt {s : State} {k : Nat} (b : Byte) (h : k < 16) : writeRegAt k b s = .ok (s.setV ⟨k, h⟩ b) := by
  simp [writeRegAt, h]

/-- Reading registers `k` to `k + n - 1` inside the file answers their values in order. -/
theorem readRegs_ok (s : State) {k n : Nat} (h : k + n ≤ 16) :
    ∃ bs : List Byte, readRegs s k n = .ok bs ∧ bs.length = n ∧
      ∀ j : Index, k ≤ j.val → j.val < k + n → bs.getD (j.val - k) 0#8 = s.getV j := by
  induction n generalizing k with
  | zero => exact ⟨[], rfl, rfl, fun j h1 h2 => absurd h2 (by omega)⟩
  | succ n ih =>
    obtain ⟨bs, hbs, hlen, hget⟩ := ih (k := k + 1) (by omega)
    refine ⟨s.getV ⟨k, by omega⟩ :: bs, ?_, by simp [hlen], ?_⟩
    · simp [readRegs, readRegAt_lt (show k < 16 by omega), hbs]
    · intro j h1 h2
      by_cases hj : j.val = k
      · rw [show j = ⟨k, by omega⟩ from Fin.ext hj]
        simp
      · rw [show j.val - k = (j.val - (k + 1)) + 1 by omega, List.getD_cons_succ]
        exact hget j (by omega) (by omega)

/-- Writing registers from `k` inside the file answers a state in which only they changed. -/
theorem writeRegs_ok {k : Nat} {bs : List Byte} (s : State) (h : k + bs.length ≤ 16) :
    ∃ V : Vector Byte 16, writeRegs k bs s = .ok { s with V := V } ∧
      ∀ j : Index, V[j.val] =
        if k ≤ j.val ∧ j.val < k + bs.length then bs.getD (j.val - k) 0#8 else s.getV j := by
  induction bs generalizing k s with
  | nil => exact ⟨s.V, rfl, fun j => by simp [show ¬ (k ≤ j.val ∧ j.val < k) by omega, State.getV]⟩
  | cons b bs ih =>
    simp only [List.length_cons] at h
    obtain ⟨V, hV, hget⟩ := ih (k := k + 1) (s.setV ⟨k, by omega⟩ b) (by omega)
    refine ⟨V, ?_, ?_⟩
    · simp only [writeRegs, writeRegAt_lt b (show k < 16 by omega), bind_ok, hV]
      rfl
    · intro j
      rw [hget j, State.getV_setV]
      simp only [List.length_cons]
      by_cases hj : j.val = k
      · rw [show j = ⟨k, by omega⟩ from Fin.ext hj]
        simp
      · have hj' : j ≠ ⟨k, by omega⟩ := fun e => hj (by rw [e])
        by_cases h2 : k + 1 ≤ j.val ∧ j.val < k + 1 + bs.length
        · rw [if_pos h2, if_pos (by omega), show j.val - k = (j.val - (k + 1)) + 1 by omega, List.getD_cons_succ]
        · rw [if_neg h2, if_neg hj', if_neg (by omega)]

/-! ### Flags and operands -/

@[simp] theorem bcdDigits_length (v : Byte) : (bcdDigits v).length = 3 := rfl

theorem flagByte_eq_one {b : Bool} : flagByte b = 1#8 ↔ b = true := by cases b <;> decide

/-- The registers after a result and then a flag are written (42_alu.md R147). -/
theorem getV_writeWithFlag (x y : Index) (r : Byte) (f : Bool) (s : State) :
    (writeWithFlag x r f s).getV y = if y = VF then flagByte f else if y = x then r else s.getV y := by
  simp only [writeWithFlag, State.getV_setV]

/-! ### A result with its flag writes general registers only (42_alu.md R147) -/

@[simp] theorem writeWithFlag_I (x : Index) (r : Byte) (f : Bool) (s : State) : (writeWithFlag x r f s).I = s.I := rfl

@[simp] theorem writeWithFlag_pc (x : Index) (r : Byte) (f : Bool) (s : State) : (writeWithFlag x r f s).pc = s.pc := rfl

@[simp] theorem writeWithFlag_S (x : Index) (r : Byte) (f : Bool) (s : State) : (writeWithFlag x r f s).S = s.S := rfl

@[simp] theorem writeWithFlag_SP (x : Index) (r : Byte) (f : Bool) (s : State) : (writeWithFlag x r f s).SP = s.SP := rfl

@[simp] theorem writeWithFlag_mem (x : Index) (r : Byte) (f : Bool) (s : State) : (writeWithFlag x r f s).mem = s.mem := rfl

@[simp] theorem writeWithFlag_D (x : Index) (r : Byte) (f : Bool) (s : State) : (writeWithFlag x r f s).D = s.D := rfl

@[simp] theorem writeWithFlag_dirty (x : Index) (r : Byte) (f : Bool) (s : State) : (writeWithFlag x r f s).dirty = s.dirty := rfl

@[simp] theorem writeWithFlag_status (x : Index) (r : Byte) (f : Bool) (s : State) : (writeWithFlag x r f s).status = s.status := rfl

@[simp] theorem writeWithFlag_params (x : Index) (r : Byte) (f : Bool) (s : State) : (writeWithFlag x r f s).params = s.params := rfl

@[simp] theorem writeWithFlag_cyc (x : Index) (r : Byte) (f : Bool) (s : State) : (writeWithFlag x r f s).cyc = s.cyc := rfl

@[simp] theorem writeWithFlag_draws (x : Index) (r : Byte) (f : Bool) (s : State) : (writeWithFlag x r f s).draws = s.draws := rfl

/-! ### Parameters (00_scope.md R7, R8; 70_reset_and_hazards.md R257) -/

theorem params_wellFormed_iff (p : Params) :
    p.wellFormed = true ↔ 512 ≤ p.programBase ∧ p.programBase ≤ 4094 ∧ p.fontBase + 80 ≤ 512 := by
  simp only [Params.wellFormed, Bool.and_eq_true, decide_eq_true_eq, and_assoc]
  exact Iff.rfl

theorem params_imageFits_iff (p : Params) (image : List Byte) :
    p.imageFits image = true ↔ p.programBase + image.length ≤ 4096 := decide_eq_true_iff

end Sys2Proof.Machine
end

