-- ==== Sys2Proof/Laws/Cycle.lean ====
section
/-! SUPPORT. Laws/Cycle.lean: the cycle (40_cycle.md R100) unfolded once: its fetch, its advance, its execute step, and
every way it can end. -/

namespace Sys2Proof.Machine

@[simp] theorem onNext_next (f : State → State) (s : State) : onNext f (.next s) = .next (f s) := rfl

theorem onNext_eq_next {f : State → State} {o : Host.Outcome State Fault Refusal} {t : State} :
    onNext f o = .next t ↔ ∃ u, o = .next u ∧ t = f u := by
  cases o <;> simp [onNext, eq_comm]

/-! ### Parts of the cycle -/

theorem fetch_beginCycle (s : State) (r : Byte) :
    fetch (s.beginCycle r) = if s.pc + 2 ≤ 4096 then .ok (s.wordAt s.pc) else .error .memoryOutOfBounds := by
  change (if inMemory s.pc 2 = true then Except.ok (s.wordAt s.pc) else .error Fault.memoryOutOfBounds) = _
  simp only [inMemory_iff]

theorem execute_ok {w : Word} {i : Instr} (s : State) (h : decodeWord w = .ok i) : execute w s = exec i s := by
  simp [execute, h]

theorem execute_unimplemented {w : Word} (s : State) (h : decodeWord w = .error (.unimplementedOpcode w)) :
    execute w s = .next (s.raise .unimplementedOpcode) := by
  simp [execute, h]

/-- A cycle of a running machine: the fetch fault, the fault of the advance, or the execute step, then the end of the
cycle. -/
theorem runCycle_eq (r : Byte) (s : State) :
    runCycle r s =
      onNext State.endCycle
        (if 4096 < s.pc + 2 then .next ((s.beginCycle r).raise .memoryOutOfBounds)
         else if 4095 ≤ s.pc + 2 then .next (((s.beginCycle r).withWord (s.wordAt s.pc)).raise .illegalJumpTarget)
         else execute (s.wordAt s.pc) (s.inExecute r)) := by
  unfold runCycle
  simp only [fetch_beginCycle]
  by_cases h : s.pc + 2 ≤ 4096
  · rw [if_pos h, if_neg (by omega)]
    simp only [advanceAndExecute]
    rw [show ((s.beginCycle r).withWord (s.wordAt s.pc)).pc = s.pc from rfl]
    by_cases h' : 4095 ≤ s.pc + 2
    · rw [setPc_illegal _ h', if_pos h']
    · rw [setPc_legal _ (by omega), if_neg h']
      rfl
  · rw [if_neg h, if_pos (by omega)]

theorem cycle_running {s : State} (r : Byte) (h : s.status = .running) : cycle r s = runCycle r s := by
  simp [cycle, h]

theorem cycle_not_running {s : State} (r : Byte) (h : s.status ≠ .running) : cycle r s = .next s := by
  unfold cycle
  split <;> simp_all

/-- Every way a cycle of a running machine can end. -/
theorem cycle_cases {r : Byte} {s t : State} (hs : s.status = .running) (h : cycle r s = .next t) :
    (4095 ≤ s.pc ∧ t = ((s.beginCycle r).raise .memoryOutOfBounds).endCycle) ∨
    ((s.pc = 4093 ∨ s.pc = 4094) ∧
      t = (((s.beginCycle r).withWord (s.wordAt s.pc)).raise .illegalJumpTarget).endCycle) ∨
    (s.pc + 2 < 4095 ∧ decodeWord (s.wordAt s.pc) = .error (.unimplementedOpcode (s.wordAt s.pc)) ∧
      t = ((s.inExecute r).raise .unimplementedOpcode).endCycle) ∨
    ∃ i u, s.aboutToRun i ∧ exec i (s.inExecute r) = .next u ∧ t = u.endCycle := by
  rw [cycle_running r hs, runCycle_eq, onNext_eq_next] at h
  obtain ⟨u, hu, rfl⟩ := h
  split at hu
  · cases hu
    exact .inl ⟨by omega, rfl⟩
  · split at hu
    · cases hu
      exact .inr (.inl ⟨by omega, rfl⟩)
    · rename_i h2
      rcases decodeWord_cases (s.wordAt s.pc) with ⟨i, hi⟩ | hi
      · rw [execute_ok _ hi] at hu
        exact .inr (.inr (.inr ⟨i, u, ⟨hs, by omega, hi⟩, hu, rfl⟩))
      · rw [execute_unimplemented _ hi] at hu
        cases hu
        exact .inr (.inr (.inl ⟨by omega, hi, rfl⟩))

/-- Transactions other than a cycle of a running machine, as state functions. -/
theorem transact_cycle (r : Byte) (s : State) : transact (.cycle r) s = cycle r s := rfl

/-! ### The state an instruction executes in -/

@[simp] theorem inExecute_wordAt (s : State) (r : Byte) (a : Nat) : (s.inExecute r).wordAt a = s.wordAt a := rfl

@[simp] theorem endCycle_wordAt (s : State) (a : Nat) : s.endCycle.wordAt a = s.wordAt a := rfl

@[simp] theorem endCycle_isFaulted (s : State) : s.endCycle.isFaulted = s.isFaulted := rfl

@[simp] theorem inExecute_isFaulted (s : State) (r : Byte) : (s.inExecute r).isFaulted = s.isFaulted := rfl

end Sys2Proof.Machine
end

