-- ==== Sys2Proof/Laws/Display.lean ====
section
/-! SUPPORT. Laws/Display.lean: what the blitter's loops (44_display.md R182) do to every cell and to the collision flag,
in closed form. -/

namespace Sys2Proof.Machine

theorem cellAt_setCell (d : Display) (r r' : Fin 32) (c₁ c' : Fin 64) (b : Bool) :
    cellAt (setCell d r c₁ b) r' c' = if r' = r ∧ c' = c₁ then b else cellAt d r' c' := by
  unfold cellAt setCell
  by_cases hr : r' = r
  · subst hr
    by_cases hc : c' = c₁
    · subst hc; simp
    · have : c₁.val ≠ c'.val := fun e => hc (Fin.ext e.symm)
      simp [hc, this]
  · have : r.val ≠ r'.val := fun e => hr (Fin.ext e.symm)
    simp [hr, this]

@[simp] theorem cellAt_allOff (r : Fin 32) (c₁ : Fin 64) : cellAt allOff r c₁ = false := by
  simp [cellAt, allOff]

/-- Two displays with the same cells are equal. -/
theorem display_ext {d e : Display} (h : ∀ r c₁, cellAt d r c₁ = cellAt e r c₁) : d = e := by
  ext r hr c₁ hc
  exact h ⟨r, hr⟩ ⟨c₁, hc⟩

/-- The cell at row-major index `r*64 + c` (10_state.md R33). -/
theorem rowMajor_getElem (d : Display) (r : Fin 32) (c₁ : Fin 64) :
    (rowMajor d)[r.val * 64 + c₁.val]'(by omega) = cellAt d r c₁ := by
  have h1 : (r.val * 64 + c₁.val) / 64 = r.val := by omega
  have h2 : (r.val * 64 + c₁.val) % 64 = c₁.val := by omega
  simp only [rowMajor, Vector.getElem_flatten, cellAt, h1, h2]

/-! ### One sprite row -/

/-- Sprite row `i`, columns `j` to `j + n - 1`, has a set bit on cell `(r, c)`. -/
def RowCovers (x0 y0 i : Nat) (row : Byte) (j n : Nat) (r : Fin 32) (c₁ : Fin 64) : Prop :=
  y0 + i = r.val ∧ ∃ k, j ≤ k ∧ k < j + n ∧ x0 + k = c₁.val ∧ spriteBit row k = true

/-- A blit that toggles exactly the covered cells and collides exactly on the covered lit ones. -/
structure Toggles (covers : Fin 32 → Fin 64 → Prop) (b b' : Blit) : Prop where
  on  : ∀ r c₁, covers r c₁ → cellAt b'.display r c₁ = !cellAt b.display r c₁
  off : ∀ r c₁, ¬ covers r c₁ → cellAt b'.display r c₁ = cellAt b.display r c₁
  hit : b'.collided = true ↔ b.collided = true ∨ ∃ r c₁, covers r c₁ ∧ cellAt b.display r c₁ = true

theorem toggles_congr {P Q : Fin 32 → Fin 64 → Prop} {b b' : Blit} (h : ∀ r c₁, P r c₁ ↔ Q r c₁)
    (t : Toggles P b b') : Toggles Q b b' := by
  have : P = Q := by ext r c₁; exact h r c₁
  exact this ▸ t

theorem toggles_none {P : Fin 32 → Fin 64 → Prop} (b : Blit) (h : ∀ r c₁, ¬ P r c₁) : Toggles P b b where
  on r c₁ hp := absurd hp (h r c₁)
  off _ _ _ := rfl
  hit := by simp [h]

/-- Two blits one after the other, over cells that do not overlap. -/
theorem toggles_trans {P Q : Fin 32 → Fin 64 → Prop} {b b' b'' : Blit} (disj : ∀ r c₁, P r c₁ → ¬ Q r c₁)
    (h1 : Toggles P b b') (h2 : Toggles Q b' b'') : Toggles (fun r c₁ => P r c₁ ∨ Q r c₁) b b'' where
  on r c₁ hp := by
    rcases hp with hp | hq
    · rw [h2.off r c₁ (disj r c₁ hp), h1.on r c₁ hp]
    · rw [h2.on r c₁ hq, h1.off r c₁ (fun hp => disj r c₁ hp hq)]
  off r c₁ hn := by
    rw [h2.off r c₁ (fun hq => hn (.inr hq)), h1.off r c₁ (fun hp => hn (.inl hp))]
  hit := by
    rw [h2.hit, h1.hit, or_assoc]
    refine or_congr_right ⟨?_, ?_⟩
    · rintro (⟨r, c₁, hp, hl⟩ | ⟨r, c₁, hq, hl⟩)
      · exact ⟨r, c₁, .inl hp, hl⟩
      · exact ⟨r, c₁, .inr hq, by rwa [h1.off r c₁ (fun hp => disj r c₁ hp hq)] at hl⟩
    · rintro ⟨r, c₁, hp | hq, hl⟩
      · exact .inl ⟨r, c₁, hp, hl⟩
      · exact .inr ⟨r, c₁, hq, by rwa [h1.off r c₁ (fun hp => disj r c₁ hp hq)]⟩

/-- One pixel toggles its cell if it is on-screen and its bit is set (R182 to R184). -/
theorem blitPixel_toggles (x0 y0 i j : Nat) (bit : Bool) (b : Blit) :
    Toggles (fun r c₁ => y0 + i = r.val ∧ x0 + j = c₁.val ∧ bit = true) b (blitPixel x0 y0 i j bit b) := by
  unfold blitPixel
  split
  · rename_i h
    have key : ∀ (r : Fin 32) (c₁ : Fin 64),
        (y0 + i = r.val ∧ x0 + j = c₁.val ∧ bit = true) ↔ (r = ⟨y0 + i, h.1⟩ ∧ c₁ = ⟨x0 + j, h.2.1⟩) := by
      intro r c₁
      simp [Fin.ext_iff, h.2.2, eq_comm]
    constructor
    · intro r c₁ hp
      obtain ⟨rfl, rfl⟩ := (key r c₁).1 hp
      simp [cellAt_setCell]
    · intro r c₁ hn
      rw [key] at hn
      simp [cellAt_setCell, hn]
    · simp only [key, Bool.or_eq_true]
      refine or_congr_right ⟨fun hl => ⟨_, _, ⟨rfl, rfl⟩, hl⟩, ?_⟩
      rintro ⟨r, c₁, ⟨rfl, rfl⟩, hl⟩
      exact hl
  · rename_i h
    exact toggles_none b fun r c₁ hp => h ⟨by omega, by omega, hp.2.2⟩

/-- A sprite row toggles the cells its set bits cover. -/
theorem blitColumns_toggles (x0 y0 i : Nat) (row : Byte) (j n : Nat) (b : Blit) :
    Toggles (RowCovers x0 y0 i row j n) b (blitColumns x0 y0 i row j n b) := by
  induction n generalizing j b with
  | zero => exact toggles_none b fun r c₁ ⟨_, k, h1, h2, _⟩ => absurd h2 (by omega)
  | succ n ih =>
    refine toggles_congr ?_ (toggles_trans ?_ (blitPixel_toggles x0 y0 i j (spriteBit row j) b) (ih (j + 1) _))
    · intro r c₁
      constructor
      · rintro (⟨h1, h2, h3⟩ | ⟨h1, k, h2, h3, h4⟩)
        · exact ⟨h1, j, le_rfl, by omega, h2, h3⟩
        · exact ⟨h1, k, by omega, by omega, h4⟩
      · rintro ⟨h1, k, h2, h3, h4, h5⟩
        by_cases hk : k = j
        · subst hk
          exact .inl ⟨h1, h4, h5⟩
        · exact .inr ⟨h1, k, by omega, by omega, h4, h5⟩
    · rintro r c₁ ⟨_, h1, _⟩ ⟨_, k, h2, _, h3, _⟩
      omega

/-! ### The whole sprite -/

/-- The sprite rows from display row `y0 + i` have a set bit on cell `(r, c)`. -/
def RowsCover (x0 y0 i : Nat) (rows : List Byte) (r : Fin 32) (c₁ : Fin 64) : Prop :=
  ∃ m k, m < rows.length ∧ k < 8 ∧ y0 + i + m = r.val ∧ x0 + k = c₁.val ∧ spriteBit (rows.getD m 0#8) k = true

/-- The blitter toggles the cells the sprite's set bits cover, and collides on the lit ones among them. -/
theorem blitRows_toggles (x0 y0 i : Nat) (rows : List Byte) (b : Blit) :
    Toggles (RowsCover x0 y0 i rows) b (blitRows x0 y0 i rows b) := by
  induction rows generalizing i b with
  | nil => exact toggles_none b fun r c₁ ⟨m, k, h, _⟩ => absurd h (by simp)
  | cons row rows ih =>
    refine toggles_congr ?_ (toggles_trans ?_ (blitColumns_toggles x0 y0 i row 0 8 b) (ih (i + 1) _))
    · intro r c₁
      constructor
      · rintro (⟨h1, k, h2, h3, h4, h5⟩ | ⟨m, k, h1, h2, h3, h4, h5⟩)
        · exact ⟨0, k, by simp, by omega, by omega, h4, by simpa using h5⟩
        · exact ⟨m + 1, k, by simpa using h1, h2, by omega, h4, by simpa using h5⟩
      · rintro ⟨m, k, h1, h2, h3, h4, h5⟩
        cases m with
        | zero => exact .inl ⟨by omega, k, by omega, by omega, h4, by simpa using h5⟩
        | succ m => exact .inr ⟨m, k, by simpa using h1, h2, by omega, h4, by simpa using h5⟩
    · rintro r c₁ ⟨h1, _⟩ ⟨m, k, _, _, h2, _⟩
      omega

/-- Coverage by the rows read from memory is coverage by the sprite at `I` (R181). -/
theorem rowsCover_bytesAt (s : State) (x0 y0 d : Nat) (r : Fin 32) (c₁ : Fin 64) :
    RowsCover x0 y0 0 (s.bytesAt s.I.toNat d) r c₁ ↔ SpriteCovers s x0 y0 d r c₁ := by
  constructor
  · rintro ⟨m, k, h1, h2, h3, h4, h5⟩
    rw [bytesAt_length] at h1
    rw [bytesAt_getD s _ _ _ h1] at h5
    exact ⟨m, k, h1, h2, by omega, h4, h5⟩
  · rintro ⟨m, k, h1, h2, h3, h4, h5⟩
    refine ⟨m, k, by simpa using h1, h2, by omega, h4, ?_⟩
    rw [bytesAt_getD s _ _ _ h1]
    exact h5

end Sys2Proof.Machine
end

