-- ==== Sys2Proof/Laws/Exec.lean ====
section
/-! SUPPORT. Laws/Exec.lean: what an executed instruction can leave, said once (the fields whole-machine claims need), and
the two host transactions that change the status, as cases. -/

namespace Sys2Proof.Machine

/-- What an instruction that does not fault leaves of the fields that the invariant and the status transitions read. -/
structure Effect (i : Instr) (s t : State) : Prop where
  params : t.params = s.params
  cyc    : t.cyc = s.cyc
  pc     : t.pc = s.pc ∨ writesPc i ∧ t.pc < 4095
  slots  : t.S = s.S ∨ ∃ n k, i = .callNnn n ∧ ∃ h : k < 16, t.S = s.S.set k s.pc
  mem    : t.mem = s.mem ∨ (∃ x, i = .ldBVx x ∨ i = .ldMemVx x) ∧
    ∃ a bs, a + bs.length ≤ 4096 ∧ t.mem = s.mem.writeList s.params a bs
  status : t.status = s.status ∨ (i = .halt ∧ t.status = .halted s.params.haltMode) ∨
    ∃ x, i = .ldVxK x ∧ t.status = .waitingForKey x

/-- An executed instruction takes a fault from the state it started in, or has its effect. -/
theorem exec_effect (i : Instr) (s t : State) (h : exec i s = .next t) :
    (∃ k, t = s.raise k) ∨ Effect i s t := by
  cases i with
  | halt => cases h; right; constructor <;> simp
  | cls => cases h; right; constructor <;> simp
  | ret =>
    rcases attempt_cases h with h | ⟨k, -, rfl⟩
    · right
      obtain ⟨⟨v, s1⟩, h1, h2⟩ := bind_eq_ok.1 h
      obtain ⟨h3, rfl⟩ := setPc_eq_ok.1 h2
      by_cases hz : s.SP.val = 0
      · rw [pop_empty hz] at h1; cases h1
      · rw [pop_some hz] at h1; cases h1
        constructor <;> simp [writesPc]
        right; exact h3
    · exact .inl ⟨k, rfl⟩
  | callNnn nnn =>
    rcases attempt_cases h with h | ⟨k, -, rfl⟩
    · right
      obtain ⟨s1, h1, h2⟩ := bind_eq_ok.1 h
      obtain ⟨h3, rfl⟩ := setPc_eq_ok.1 h2
      by_cases hz : s.SP.val < 16
      · rw [push_room _ hz] at h1; cases h1
        constructor <;> simp [writesPc]
        · right; exact h3
        · right; exact ⟨_, hz, rfl⟩
      · rw [push_full _ hz] at h1; cases h1
    · exact .inl ⟨k, rfl⟩
  | jpNnn nnn | jpV0Nnn nnn =>
    rcases attempt_cases h with h | ⟨k, -, rfl⟩
    · right
      obtain ⟨h3, rfl⟩ := setPc_eq_ok.1 h
      constructor <;> simp [writesPc]
      right; exact h3
    · exact .inl ⟨k, rfl⟩
  | seVxKk x y | sneVxKk x y | seVxVy x y | sneVxVy x y =>
    rcases attempt_cases h with h | ⟨k, -, rfl⟩
    · right
      unfold skipIf at h; split at h
      · obtain ⟨h3, rfl⟩ := setPc_eq_ok.1 h
        constructor <;> simp [writesPc]
        exact h3
      · cases h; constructor <;> simp
    · exact .inl ⟨k, rfl⟩
  | ldVxKk x y | addVxKk x y | ldVxVy x y | orVxVy x y | andVxVy x y | xorVxVy x y | rndVxKk x y =>
    cases h; right; constructor <;> simp
  | addVxVy x y | subVxVy x y | shrVx x y | subnVxVy x y | shlVx x y =>
    cases h; right; constructor
    all_goals simp
  | ldINnn n | addIVx n =>  cases h; right; constructor <;> simp
  | ldVxK x =>  cases h; right; constructor <;> simp
  | ldFVx x =>
    simp only [exec, execLdFVx] at h
    split at h
    · left; cases h; exact ⟨_, rfl⟩
    · right; cases h; constructor <;> simp
  | ldBVx x =>
    rcases attempt_cases h with h | ⟨k, -, rfl⟩
    · right
      rw [memWrite_eq] at h
      split at h <;> simp only [Except.ok.injEq, reduceCtorEq] at h
      subst h
      constructor <;> simp
      rename_i hl
      right; exact ⟨_, _, hl, rfl⟩
    · exact .inl ⟨k, rfl⟩
  | ldMemVx x =>
    obtain ⟨bs, h1, h2, h3⟩ := readRegs_ok s (k := 0) (n := x.val + 1) (by omega)
    simp only [exec, execLdMemVx, h1, bind_ok] at h
    rcases attempt_cases h with h | ⟨k, -, rfl⟩
    · right
      rw [memWrite_eq] at h
      split at h <;> simp only [Except.ok.injEq, reduceCtorEq] at h
      subst h
      constructor <;> simp
      rename_i hl
      right; exact ⟨_, _, hl, rfl⟩
    · exact .inl ⟨k, rfl⟩
  | ldVxMem x =>
    simp only [exec, execLdVxMem, memRead_eq] at h
    split at h
    · obtain ⟨V, h1, h2⟩ := writeRegs_ok (k := 0) (bs := s.bytesAt (dataBase s) (x.val+1)) s (by simp)
      rw [bind_ok, h1] at h
      cases h
      right
      constructor
      all_goals simp
    · cases h; left; exact ⟨_, rfl⟩
  | drwVxVyD x y d =>
    simp only [exec, execDrwVxVyD, memRead_eq] at h
    split at h
    · cases h
      right
      constructor
      all_goals simp
    · cases h; left; exact ⟨_, rfl⟩

/-! ### Host transactions by status (45_input.md R202, R203; 60_exceptions.md R232) -/

theorem keyDown_cases (k : Index) (s : State) :
    (∃ y, s.status = .waitingForKey y ∧ keyDown k s = (s.setV y (keyByte k)).withStatus .running) ∨
    ((∀ y, s.status ≠ .waitingForKey y) ∧ keyDown k s = s) := by
  unfold keyDown
  split <;> simp_all

theorem stop_cases (s : State) :
    (s.status.live = true ∧ stop s = s.withStatus .stopped) ∨ (s.status.live = false ∧ stop s = s) := by
  unfold stop
  split <;> simp_all [Status.live]

/-! ### Register and memory lists do not read the cycle's arguments -/

theorem readRegs_withCyc (s : State) (a : CycleArgs) (k n : Nat) : readRegs (s.withCyc a) k n = readRegs s k n := by
  induction n generalizing k with
  | zero => rfl
  | succ n ih => simp only [readRegs, ih]; rfl

theorem writeRegs_withCyc (s : State) (a : CycleArgs) (k : Nat) (bs : List Byte) :
    writeRegs k bs (s.withCyc a) = (writeRegs k bs s).map (·.withCyc a) := by
  induction bs generalizing k s with
  | nil => rfl
  | cons b bs ih =>
    simp only [writeRegs, writeRegAt]
    split
    · exact ih (s.setV _ b) _
    · rfl

theorem bytesAt_withCyc (s : State) (a : CycleArgs) (k n : Nat) : (s.withCyc a).bytesAt k n = s.bytesAt k n := by
  induction n generalizing k with
  | zero => rfl
  | succ n ih => simp only [State.bytesAt, ih]; rfl

end Sys2Proof.Machine
end

