-- ==== Sys2Proof/Laws/PerInstr.lean ====
section
/-! SUPPORT. Laws/PerInstr.lean: facts of every instruction as syntax, one lemma per constructor: its operands fit their
fields (`Fits`), its encoding decodes back to it (`RoundTrip`), its row of the opcode map selects its encoding
(`RowSelects`). -/

/-- Every operand fits its encoding field (30_encoding.md R70). -/
def Sys2Proof.Laws.Fits.Statement (i : Sys2Proof.Instr) : Prop := i.wellFormed = true

/-- The opcode map reads an instruction back from its encoding (R71, R74). -/
def Sys2Proof.Laws.RoundTrip.Statement (i : Sys2Proof.Instr) : Prop := Sys2Proof.decodeMap (Sys2Proof.encode i) = some i

/-- The instruction's row selects its encoding (R74). -/
def Sys2Proof.Laws.RowSelects.Statement (i : Sys2Proof.Instr) : Prop := i.row.selects (Sys2Proof.encode i) = true

namespace Sys2Proof.Laws.Fits

theorem halt : Statement (.halt) := rfl
theorem cls : Statement (.cls) := rfl
theorem ret : Statement (.ret) := rfl
theorem jpNnn (nnn : Addr12) : Statement (.jpNnn nnn) := by simp [Statement, Instr.wellFormed, Instr.operands, fitsField, nnn.isLt]
theorem callNnn (nnn : Addr12) : Statement (.callNnn nnn) := by simp [Statement, Instr.wellFormed, Instr.operands, fitsField, nnn.isLt]
theorem seVxKk (x : Index) (kk : Byte) : Statement (.seVxKk x kk) := by simp [Statement, Instr.wellFormed, Instr.operands, fitsField, x.isLt, kk.isLt]
theorem sneVxKk (x : Index) (kk : Byte) : Statement (.sneVxKk x kk) := by simp [Statement, Instr.wellFormed, Instr.operands, fitsField, x.isLt, kk.isLt]
theorem seVxVy (x y : Index) : Statement (.seVxVy x y) := by simp [Statement, Instr.wellFormed, Instr.operands, fitsField, x.isLt, y.isLt]
theorem ldVxKk (x : Index) (kk : Byte) : Statement (.ldVxKk x kk) := by simp [Statement, Instr.wellFormed, Instr.operands, fitsField, x.isLt, kk.isLt]
theorem addVxKk (x : Index) (kk : Byte) : Statement (.addVxKk x kk) := by simp [Statement, Instr.wellFormed, Instr.operands, fitsField, x.isLt, kk.isLt]
theorem ldVxVy (x y : Index) : Statement (.ldVxVy x y) := by simp [Statement, Instr.wellFormed, Instr.operands, fitsField, x.isLt, y.isLt]
theorem orVxVy (x y : Index) : Statement (.orVxVy x y) := by simp [Statement, Instr.wellFormed, Instr.operands, fitsField, x.isLt, y.isLt]
theorem andVxVy (x y : Index) : Statement (.andVxVy x y) := by simp [Statement, Instr.wellFormed, Instr.operands, fitsField, x.isLt, y.isLt]
theorem xorVxVy (x y : Index) : Statement (.xorVxVy x y) := by simp [Statement, Instr.wellFormed, Instr.operands, fitsField, x.isLt, y.isLt]
theorem addVxVy (x y : Index) : Statement (.addVxVy x y) := by simp [Statement, Instr.wellFormed, Instr.operands, fitsField, x.isLt, y.isLt]
theorem subVxVy (x y : Index) : Statement (.subVxVy x y) := by simp [Statement, Instr.wellFormed, Instr.operands, fitsField, x.isLt, y.isLt]
theorem shrVx (x y : Index) : Statement (.shrVx x y) := by simp [Statement, Instr.wellFormed, Instr.operands, fitsField, x.isLt, y.isLt]
theorem subnVxVy (x y : Index) : Statement (.subnVxVy x y) := by simp [Statement, Instr.wellFormed, Instr.operands, fitsField, x.isLt, y.isLt]
theorem shlVx (x y : Index) : Statement (.shlVx x y) := by simp [Statement, Instr.wellFormed, Instr.operands, fitsField, x.isLt, y.isLt]
theorem sneVxVy (x y : Index) : Statement (.sneVxVy x y) := by simp [Statement, Instr.wellFormed, Instr.operands, fitsField, x.isLt, y.isLt]
theorem ldINnn (nnn : Addr12) : Statement (.ldINnn nnn) := by simp [Statement, Instr.wellFormed, Instr.operands, fitsField, nnn.isLt]
theorem jpV0Nnn (nnn : Addr12) : Statement (.jpV0Nnn nnn) := by simp [Statement, Instr.wellFormed, Instr.operands, fitsField, nnn.isLt]
theorem rndVxKk (x : Index) (kk : Byte) : Statement (.rndVxKk x kk) := by simp [Statement, Instr.wellFormed, Instr.operands, fitsField, x.isLt, kk.isLt]
theorem drwVxVyD (x y d : Index) : Statement (.drwVxVyD x y d) := by simp [Statement, Instr.wellFormed, Instr.operands, fitsField, x.isLt, y.isLt, d.isLt]
theorem ldVxK (x : Index) : Statement (.ldVxK x) := by simp [Statement, Instr.wellFormed, Instr.operands, fitsField, x.isLt]
theorem addIVx (x : Index) : Statement (.addIVx x) := by simp [Statement, Instr.wellFormed, Instr.operands, fitsField, x.isLt]
theorem ldFVx (x : Index) : Statement (.ldFVx x) := by simp [Statement, Instr.wellFormed, Instr.operands, fitsField, x.isLt]
theorem ldBVx (x : Index) : Statement (.ldBVx x) := by simp [Statement, Instr.wellFormed, Instr.operands, fitsField, x.isLt]
theorem ldMemVx (x : Index) : Statement (.ldMemVx x) := by simp [Statement, Instr.wellFormed, Instr.operands, fitsField, x.isLt]
theorem ldVxMem (x : Index) : Statement (.ldVxMem x) := by simp [Statement, Instr.wellFormed, Instr.operands, fitsField, x.isLt]

end Sys2Proof.Laws.Fits

namespace Sys2Proof.Laws.RoundTrip

/-! The opcode map after the class nibble is known, one lemma per operand layout. -/

theorem map_xkk (c : BitVec 4) (x : Index) (kk : Byte) (i : Instr)
    (h : ∀ w : Word, (fieldsOf w).c = c → (fieldsOf w).x.toFin = x → (fieldsOf w).kk = kk → decodeMap w = some i) :
    decodeMap (encodeXkk c x kk) = some i :=
  have f := fieldsOf_encodeXkk c x kk
  h _ f.1 f.2.1 f.2.2

theorem map_nnn (c : BitVec 4) (nnn : Addr12) (i : Instr)
    (h : ∀ w : Word, (fieldsOf w).c = c → (fieldsOf w).nnn = nnn → decodeMap w = some i) :
    decodeMap (encodeNnn c nnn) = some i :=
  have f := fieldsOf_encodeNnn c nnn
  h _ f.1 f.2

theorem map_xyd (c : BitVec 4) (x y : Index) (d : BitVec 4) (i : Instr)
    (h : ∀ w : Word, (fieldsOf w).c = c → (fieldsOf w).x.toFin = x → (fieldsOf w).y.toFin = y → (fieldsOf w).d = d →
      decodeMap w = some i) :
    decodeMap (encodeXyd c x y d) = some i :=
  have f := fieldsOf_encodeXyd c x y d
  h _ f.1 f.2.1 f.2.2.1 f.2.2.2

theorem halt : Statement (.halt) := rfl
theorem cls : Statement (.cls) := rfl
theorem ret : Statement (.ret) := rfl
theorem jpNnn (nnn : Addr12) : Statement (.jpNnn nnn) := 
  map_nnn _ _ _ fun w hc hn => by simp [decodeMap, hc, hn]
theorem callNnn (nnn : Addr12) : Statement (.callNnn nnn) := 
  map_nnn _ _ _ fun w hc hn => by simp [decodeMap, hc, hn]
theorem seVxKk (x : Index) (kk : Byte) : Statement (.seVxKk x kk) := 
  map_xkk _ _ _ _ fun w hc hx hk => by simp [decodeMap, hc, hx, hk]
theorem sneVxKk (x : Index) (kk : Byte) : Statement (.sneVxKk x kk) := 
  map_xkk _ _ _ _ fun w hc hx hk => by simp [decodeMap, hc, hx, hk]
theorem seVxVy (x y : Index) : Statement (.seVxVy x y) := 
  map_xyd _ _ _ _ _ fun w hc hx hy hd => by simp [decodeMap, hc, hx, hy, hd]
theorem ldVxKk (x : Index) (kk : Byte) : Statement (.ldVxKk x kk) := 
  map_xkk _ _ _ _ fun w hc hx hk => by simp [decodeMap, hc, hx, hk]
theorem addVxKk (x : Index) (kk : Byte) : Statement (.addVxKk x kk) := 
  map_xkk _ _ _ _ fun w hc hx hk => by simp [decodeMap, hc, hx, hk]
theorem ldVxVy (x y : Index) : Statement (.ldVxVy x y) := 
  map_xyd _ _ _ _ _ fun w hc hx hy hd => by simp [decodeMap, decodeClass8, hc, hx, hy, hd]
theorem orVxVy (x y : Index) : Statement (.orVxVy x y) := 
  map_xyd _ _ _ _ _ fun w hc hx hy hd => by simp [decodeMap, decodeClass8, hc, hx, hy, hd]
theorem andVxVy (x y : Index) : Statement (.andVxVy x y) := 
  map_xyd _ _ _ _ _ fun w hc hx hy hd => by simp [decodeMap, decodeClass8, hc, hx, hy, hd]
theorem xorVxVy (x y : Index) : Statement (.xorVxVy x y) := 
  map_xyd _ _ _ _ _ fun w hc hx hy hd => by simp [decodeMap, decodeClass8, hc, hx, hy, hd]
theorem addVxVy (x y : Index) : Statement (.addVxVy x y) := 
  map_xyd _ _ _ _ _ fun w hc hx hy hd => by simp [decodeMap, decodeClass8, hc, hx, hy, hd]
theorem subVxVy (x y : Index) : Statement (.subVxVy x y) := 
  map_xyd _ _ _ _ _ fun w hc hx hy hd => by simp [decodeMap, decodeClass8, hc, hx, hy, hd]
theorem shrVx (x y : Index) : Statement (.shrVx x y) := 
  map_xyd _ _ _ _ _ fun w hc hx hy hd => by simp [decodeMap, decodeClass8, hc, hx, hy, hd]
theorem subnVxVy (x y : Index) : Statement (.subnVxVy x y) := 
  map_xyd _ _ _ _ _ fun w hc hx hy hd => by simp [decodeMap, decodeClass8, hc, hx, hy, hd]
theorem shlVx (x y : Index) : Statement (.shlVx x y) := 
  map_xyd _ _ _ _ _ fun w hc hx hy hd => by simp [decodeMap, decodeClass8, hc, hx, hy, hd]
theorem sneVxVy (x y : Index) : Statement (.sneVxVy x y) := 
  map_xyd _ _ _ _ _ fun w hc hx hy hd => by simp [decodeMap, hc, hx, hy, hd]
theorem ldINnn (nnn : Addr12) : Statement (.ldINnn nnn) := 
  map_nnn _ _ _ fun w hc hn => by simp [decodeMap, hc, hn]
theorem jpV0Nnn (nnn : Addr12) : Statement (.jpV0Nnn nnn) := 
  map_nnn _ _ _ fun w hc hn => by simp [decodeMap, hc, hn]
theorem rndVxKk (x : Index) (kk : Byte) : Statement (.rndVxKk x kk) := 
  map_xkk _ _ _ _ fun w hc hx hk => by simp [decodeMap, hc, hx, hk]
theorem drwVxVyD (x y d : Index) : Statement (.drwVxVyD x y d) := 
  map_xyd _ _ _ _ _ fun w hc hx hy hd => by simp [decodeMap, hc, hx, hy, hd, nibble]
theorem ldVxK (x : Index) : Statement (.ldVxK x) := 
  map_xkk _ _ _ _ fun w hc hx hk => by simp [decodeMap, decodeClassF, hc, hx, hk]
theorem addIVx (x : Index) : Statement (.addIVx x) := 
  map_xkk _ _ _ _ fun w hc hx hk => by simp [decodeMap, decodeClassF, hc, hx, hk]
theorem ldFVx (x : Index) : Statement (.ldFVx x) := 
  map_xkk _ _ _ _ fun w hc hx hk => by simp [decodeMap, decodeClassF, hc, hx, hk]
theorem ldBVx (x : Index) : Statement (.ldBVx x) := 
  map_xkk _ _ _ _ fun w hc hx hk => by simp [decodeMap, decodeClassF, hc, hx, hk]
theorem ldMemVx (x : Index) : Statement (.ldMemVx x) := 
  map_xkk _ _ _ _ fun w hc hx hk => by simp [decodeMap, decodeClassF, hc, hx, hk]
theorem ldVxMem (x : Index) : Statement (.ldVxMem x) := 
  map_xkk _ _ _ _ fun w hc hx hk => by simp [decodeMap, decodeClassF, hc, hx, hk]

end Sys2Proof.Laws.RoundTrip

namespace Sys2Proof.Laws.RowSelects

theorem halt : Statement (.halt) := rfl
theorem cls : Statement (.cls) := rfl
theorem ret : Statement (.ret) := rfl
theorem jpNnn (nnn : Addr12) : Statement (.jpNnn nnn) := mask_class _ _ (fieldsOf_encodeNnn _ _).1
theorem callNnn (nnn : Addr12) : Statement (.callNnn nnn) := mask_class _ _ (fieldsOf_encodeNnn _ _).1
theorem seVxKk (x : Index) (kk : Byte) : Statement (.seVxKk x kk) := mask_class _ _ (fieldsOf_encodeXkk _ _ _).1
theorem sneVxKk (x : Index) (kk : Byte) : Statement (.sneVxKk x kk) := mask_class _ _ (fieldsOf_encodeXkk _ _ _).1
theorem seVxVy (x y : Index) : Statement (.seVxVy x y) := 
  mask_class_low _ _ _ (fieldsOf_encodeXyd _ _ _ _).1 (fieldsOf_encodeXyd _ _ _ _).2.2.2
theorem ldVxKk (x : Index) (kk : Byte) : Statement (.ldVxKk x kk) := mask_class _ _ (fieldsOf_encodeXkk _ _ _).1
theorem addVxKk (x : Index) (kk : Byte) : Statement (.addVxKk x kk) := mask_class _ _ (fieldsOf_encodeXkk _ _ _).1
theorem ldVxVy (x y : Index) : Statement (.ldVxVy x y) := 
  mask_class_low _ _ _ (fieldsOf_encodeXyd _ _ _ _).1 (fieldsOf_encodeXyd _ _ _ _).2.2.2
theorem orVxVy (x y : Index) : Statement (.orVxVy x y) := 
  mask_class_low _ _ _ (fieldsOf_encodeXyd _ _ _ _).1 (fieldsOf_encodeXyd _ _ _ _).2.2.2
theorem andVxVy (x y : Index) : Statement (.andVxVy x y) := 
  mask_class_low _ _ _ (fieldsOf_encodeXyd _ _ _ _).1 (fieldsOf_encodeXyd _ _ _ _).2.2.2
theorem xorVxVy (x y : Index) : Statement (.xorVxVy x y) := 
  mask_class_low _ _ _ (fieldsOf_encodeXyd _ _ _ _).1 (fieldsOf_encodeXyd _ _ _ _).2.2.2
theorem addVxVy (x y : Index) : Statement (.addVxVy x y) := 
  mask_class_low _ _ _ (fieldsOf_encodeXyd _ _ _ _).1 (fieldsOf_encodeXyd _ _ _ _).2.2.2
theorem subVxVy (x y : Index) : Statement (.subVxVy x y) := 
  mask_class_low _ _ _ (fieldsOf_encodeXyd _ _ _ _).1 (fieldsOf_encodeXyd _ _ _ _).2.2.2
theorem shrVx (x y : Index) : Statement (.shrVx x y) := 
  mask_class_low _ _ _ (fieldsOf_encodeXyd _ _ _ _).1 (fieldsOf_encodeXyd _ _ _ _).2.2.2
theorem subnVxVy (x y : Index) : Statement (.subnVxVy x y) := 
  mask_class_low _ _ _ (fieldsOf_encodeXyd _ _ _ _).1 (fieldsOf_encodeXyd _ _ _ _).2.2.2
theorem shlVx (x y : Index) : Statement (.shlVx x y) := 
  mask_class_low _ _ _ (fieldsOf_encodeXyd _ _ _ _).1 (fieldsOf_encodeXyd _ _ _ _).2.2.2
theorem sneVxVy (x y : Index) : Statement (.sneVxVy x y) := 
  mask_class_low _ _ _ (fieldsOf_encodeXyd _ _ _ _).1 (fieldsOf_encodeXyd _ _ _ _).2.2.2
theorem ldINnn (nnn : Addr12) : Statement (.ldINnn nnn) := mask_class _ _ (fieldsOf_encodeNnn _ _).1
theorem jpV0Nnn (nnn : Addr12) : Statement (.jpV0Nnn nnn) := mask_class _ _ (fieldsOf_encodeNnn _ _).1
theorem rndVxKk (x : Index) (kk : Byte) : Statement (.rndVxKk x kk) := mask_class _ _ (fieldsOf_encodeXkk _ _ _).1
theorem drwVxVyD (x y d : Index) : Statement (.drwVxVyD x y d) := mask_class _ _ (fieldsOf_encodeXyd _ _ _ _).1
theorem ldVxK (x : Index) : Statement (.ldVxK x) := 
  mask_class_kk _ _ _ (fieldsOf_encodeXkk _ _ _).1 (fieldsOf_encodeXkk _ _ _).2.2
theorem addIVx (x : Index) : Statement (.addIVx x) := 
  mask_class_kk _ _ _ (fieldsOf_encodeXkk _ _ _).1 (fieldsOf_encodeXkk _ _ _).2.2
theorem ldFVx (x : Index) : Statement (.ldFVx x) := 
  mask_class_kk _ _ _ (fieldsOf_encodeXkk _ _ _).1 (fieldsOf_encodeXkk _ _ _).2.2
theorem ldBVx (x : Index) : Statement (.ldBVx x) := 
  mask_class_kk _ _ _ (fieldsOf_encodeXkk _ _ _).1 (fieldsOf_encodeXkk _ _ _).2.2
theorem ldMemVx (x : Index) : Statement (.ldMemVx x) := 
  mask_class_kk _ _ _ (fieldsOf_encodeXkk _ _ _).1 (fieldsOf_encodeXkk _ _ _).2.2
theorem ldVxMem (x : Index) : Statement (.ldVxMem x) := 
  mask_class_kk _ _ _ (fieldsOf_encodeXkk _ _ _).1 (fieldsOf_encodeXkk _ _ _).2.2

end Sys2Proof.Laws.RowSelects
end

