-- ==== Sys2Proof/Tests/Slice0.lean ====
section
/-! SUPPORT. Tests/Slice0.lean: the model's own tests. Expected values are those of spec/95_test_vectors.md (its vector's
name stands at each test), the encodings of spec/30_encoding.md, and hand calculation from the rules; the last part shows,
for each statement with hypotheses, concrete data that meet them. -/

namespace Sys2Proof.Tests

open Sys2Proof.Machine

/-! ## WellFormed: ill-formed terms are refused -/

theorem test_field_too_wide_refused :
    fitsField 16 4 = false ∧ fitsField 15 4 = true ∧ fitsField 256 8 = false ∧ fitsField 4096 12 = false := by decide

theorem test_instruction_wellFormed : (Instr.drwVxVyD 15 15 15).wellFormed = true := by decide

theorem test_program_base_range :
    Params.wellFormed { Config.defaults with programBase := 0x1FF } = false ∧
    Params.wellFormed { Config.defaults with programBase := 4095 } = false ∧
    Params.wellFormed { Config.defaults with programBase := 4094 } = true := by decide

theorem test_font_outside_reserved_area_refused :
    Params.wellFormed { Config.defaults with fontBase := 0x1B1 } = false ∧
    Params.wellFormed { Config.defaults with fontBase := 0x1B0 } = true := by decide

/-- RST-4 and RST-3: 3585 bytes do not fit, 3584 do. -/
theorem test_image_too_long_refused (image : List Byte) :
    (image.length = 3585 → Config.defaults.imageFits image = false) ∧
    (image.length = 3584 → Config.defaults.imageFits image = true) := by
  constructor <;> intro h <;> simp only [Params.imageFits, h] <;> decide

theorem test_bad_parameters_construct_nothing :
    construct [] { Config.defaults with programBase := 0x1FF } = none := by decide

/-! ## Decoding: one word per constructor, written out from the opcode map (R74) -/

theorem test_decode_class0 :
    decodeTableWord 16 0x0000 = some .halt ∧ decodeTableWord 16 0x00E0 = some .cls ∧
    decodeTableWord 16 0x00EE = some .ret := by decide

theorem test_decode_jumps :
    decodeTableWord 16 0x1ABC = some (.jpNnn 0xABC) ∧ decodeTableWord 16 0x2345 = some (.callNnn 0x345) ∧
    decodeTableWord 16 0xBF80 = some (.jpV0Nnn 0xF80) := by decide

theorem test_decode_skips :
    decodeTableWord 16 0x3A5C = some (.seVxKk 10 0x5C) ∧ decodeTableWord 16 0x4B21 = some (.sneVxKk 11 0x21) ∧
    decodeTableWord 16 0x5120 = some (.seVxVy 1 2) ∧ decodeTableWord 16 0x9DE0 = some (.sneVxVy 13 14) := by decide

theorem test_decode_immediates :
    decodeTableWord 16 0x6F42 = some (.ldVxKk 15 0x42) ∧ decodeTableWord 16 0x7305 = some (.addVxKk 3 0x05) ∧
    decodeTableWord 16 0xC30F = some (.rndVxKk 3 0x0F) := by decide

theorem test_decode_class8_logic :
    decodeTableWord 16 0x8AB0 = some (.ldVxVy 10 11) ∧ decodeTableWord 16 0x8011 = some (.orVxVy 0 1) ∧
    decodeTableWord 16 0x8C32 = some (.andVxVy 12 3) ∧ decodeTableWord 16 0x8443 = some (.xorVxVy 4 4) := by decide

theorem test_decode_class8_arithmetic :
    decodeTableWord 16 0x8F14 = some (.addVxVy 15 1) ∧ decodeTableWord 16 0x8015 = some (.subVxVy 0 1) ∧
    decodeTableWord 16 0x8236 = some (.shrVx 2 3) ∧ decodeTableWord 16 0x80F7 = some (.subnVxVy 0 15) ∧
    decodeTableWord 16 0x82FE = some (.shlVx 2 15) := by decide

theorem test_decode_address_and_display :
    decodeTableWord 16 0xAFFF = some (.ldINnn 0xFFF) ∧ decodeTableWord 16 0xD12F = some (.drwVxVyD 1 2 15) := by decide

theorem test_decode_classF :
    decodeTableWord 16 0xF30A = some (.ldVxK 3) ∧ decodeTableWord 16 0xF21E = some (.addIVx 2) ∧
    decodeTableWord 16 0xF429 = some (.ldFVx 4) ∧ decodeTableWord 16 0xFE33 = some (.ldBVx 14) ∧
    decodeTableWord 16 0xF255 = some (.ldMemVx 2) ∧ decodeTableWord 16 0xF165 = some (.ldVxMem 1) := by decide

/-- DEC-5, DEC-6: words no row selects. -/
theorem test_decode_rejects :
    ∀ w ∈ [0x0123, 0x00E1, 0x00EF, 0x0FFF, 0x5121, 0x912F, 0x8008, 0x800D, 0x800F, 0xE09E, 0xE0A1, 0xF007, 0xF015,
      0xF018, 0xF000, 0xF0FF, 0xFFFF], decodeTableWord 16 w = none := by decide

/-- Encodings written out by hand from the opcode map's patterns. -/
theorem test_encode_words :
    encode (.drwVxVyD 1 2 15) = 0xD12F ∧ encode (.shlVx 2 15) = 0x82FE ∧ encode (.jpNnn 0xABC) = 0x1ABC ∧
    encodeBytes (.ldMemVx 2) = [0xF2, 0x55] := by decide

/-! ## One step of each instruction -/

/-- The state of a `next` outcome. -/
def after (o : Host.Outcome State Fault Refusal) : State :=
  match o with
  | .next s    => s
  | .fault _   => State.reset
  | .refused _ => State.reset

/-- One cycle of word `w`, placed at `pc`, with random byte 0. -/
def run (w : Nat) (s : State) : State := after (cycle 0#8 (s.withFetchWord 16 w))

/-- The reset state with `I` set and bytes stored at it. -/
def withData (a : Word) (bs : List Byte) : State :=
  (State.reset.withI a).withMem (Memory.writeList Config.defaults [] a.toNat bs)

/-- The status a fault of kind `k` by word `w` at address `a` gives. -/
def faulted (k : Fault) (a : Nat) (w : Word) : Status := .faulted { kind := k, pc := a, opcode := some w }

/-- FLOW-1 and RST-2. -/
theorem test_halt : (run 0x0000 State.reset).status = .halted .headless ∧ (run 0x0000 State.reset).pc = 0x202 := by decide

/-- FLOW-2. -/
theorem test_halt_interactive :
    (run 0x0000 { State.reset with params := { Config.defaults with haltMode := .interactive } }).status =
      .halted .interactive := by decide

/-- DRW-15, DRW-16. -/
theorem test_cls :
    cellAt (run 0x00E0 (State.reset.withD (setCell State.reset.D 5 5 true))).D 5 5 = false ∧
    (run 0x00E0 State.reset).dirty = true := by decide

/-- FLOW-4. -/
theorem test_ret :
    (run 0x00EE (State.reset.withStack (State.reset.S.set 15 0x3A2) 16)).pc = 0x3A2 ∧
    (run 0x00EE (State.reset.withStack (State.reset.S.set 15 0x3A2) 16)).SP = 15 := by decide

/-- FLOW-5. -/
theorem test_ret_empty : (run 0x00EE State.reset).status = faulted .stackUnderflow 0x200 0x00EE := by decide

/-- FLOW-7. -/
theorem test_jp :
    (run 0x1FFE State.reset).pc = 0xFFE ∧ (run 0x1FFF State.reset).status = faulted .illegalJumpTarget 0x200 0x1FFF := by
  decide

/-- FLOW-10. -/
theorem test_call :
    (run 0x2300 (State.reset.withStack State.reset.S 15)).pc = 0x300 ∧
    (run 0x2300 (State.reset.withStack State.reset.S 15)).S[15] = 0x202 := by decide

/-- FLOW-13: overflow is checked before the target. -/
theorem test_call_full :
    (run 0x2FFF (State.reset.withStack State.reset.S 16)).status = faulted .stackOverflow 0x200 0x2FFF := by decide

/-- FLOW-16, FLOW-18. -/
theorem test_se_imm :
    (run 0x3FFF ((State.reset.setV 15 0xFF).withPc 4090)).pc = 0xFFE ∧
    (run 0x3FFE ((State.reset.setV 15 0xFF).withPc 4091)).pc = 0xFFD := by decide

/-- FLOW-17. -/
theorem test_se_imm_illegal :
    (run 0x3FFF ((State.reset.setV 15 0xFF).withPc 4091)).status = faulted .illegalJumpTarget 0xFFB 0x3FFF := by decide

/-- FLOW-19, FLOW-20. -/
theorem test_sne_imm :
    (run 0x4007 ((State.reset.setV 0 7).withPc 0x206)).pc = 0x208 ∧
    (run 0x4007 ((State.reset.setV 0 8).withPc 0x206)).pc = 0x20A := by decide

/-- FLOW-22, FLOW-23. -/
theorem test_se_reg :
    (run 0x5120 ((State.reset.setV 1 3).setV 2 4)).pc = 0x202 ∧ (run 0x5550 State.reset).pc = 0x204 := by decide

/-- FLOW-24, FLOW-26. -/
theorem test_sne_reg :
    (run 0x9120 ((State.reset.setV 1 1).setV 2 2)).pc = 0x204 ∧ (run 0x9550 State.reset).pc = 0x202 := by decide

/-- FLOW-32: the register is `V0`. -/
theorem test_jp_v0 : (run 0xB201 (State.reset.setV 1 0x50)).pc = 0x201 := by decide

/-- FLOW-29, FLOW-31: no wrap. -/
theorem test_jp_v0_limits :
    (run 0xBF80 (State.reset.setV 0 0x7E)).pc = 0xFFE ∧
    (run 0xBFFF (State.reset.setV 0 0xFF)).status = faulted .illegalJumpTarget 0x200 0xBFFF := by decide

/-- ALU-2. -/
theorem test_ld_imm : (run 0x6F42 (State.reset.setV 15 1)).getV 15 = 0x42 := by decide

/-- ALU-4, ALU-5. -/
theorem test_add_imm :
    (run 0x7305 (State.reset.setV 3 0xFE)).getV 3 = 0x03 ∧ (run 0x7305 (State.reset.setV 3 0xFE)).getV 15 = 0 ∧
    (run 0x7FFF (State.reset.setV 15 1)).getV 15 = 0 := by decide

/-- ALU-7. -/
theorem test_ld_reg : (run 0x8AB0 (State.reset.setV 11 0x42)).getV 10 = 0x42 := by decide

/-- ALU-8: `VF` unchanged. -/
theorem test_or :
    (run 0x8011 (((State.reset.setV 0 0xF0).setV 1 0x0F).setV 15 1)).getV 0 = 0xFF ∧
    (run 0x8011 (((State.reset.setV 0 0xF0).setV 1 0x0F).setV 15 1)).getV 15 = 1 := by decide

/-- ALU-9. -/
theorem test_and : (run 0x8012 ((State.reset.setV 0 0xF0).setV 1 0x3C)).getV 0 = 0x30 := by decide

/-- ALU-10, ALU-11. -/
theorem test_xor :
    (run 0x8013 ((State.reset.setV 0 0xF0).setV 1 0x3C)).getV 0 = 0xCC ∧
    (run 0x8443 (State.reset.setV 4 0x99)).getV 4 = 0 := by decide

/-- E1. -/
theorem test_add_reg :
    (run 0x8014 ((State.reset.setV 0 0x80).setV 1 0x7F)).getV 15 = 0 ∧
    (run 0x8014 ((State.reset.setV 0 0xFF).setV 1 0xFF)).getV 0 = 0xFE ∧
    (run 0x8014 ((State.reset.setV 0 0xFF).setV 1 0xFF)).getV 15 = 1 := by decide

/-- ALU-15, ALU-16: `VF` as destination and as operand. -/
theorem test_add_reg_vf :
    (run 0x8F14 ((State.reset.setV 15 0x80).setV 1 0x80)).getV 15 = 1 ∧
    (run 0x80F4 ((State.reset.setV 0 1).setV 15 0xFF)).getV 0 = 0 := by decide

/-- ALU-18, ALU-19. -/
theorem test_sub :
    (run 0x8015 ((State.reset.setV 0 3).setV 1 10)).getV 0 = 0xF9 ∧
    (run 0x8015 ((State.reset.setV 0 3).setV 1 10)).getV 15 = 1 ∧
    (run 0x8005 (State.reset.setV 0 5)).getV 15 = 0 := by decide

/-- ALU-21. -/
theorem test_sub_vf : (run 0x8F05 (State.reset.setV 0 1)).getV 15 = 1 := by decide

/-- ALU-22: `y` is ignored. -/
theorem test_shr :
    (run 0x8016 ((State.reset.setV 0 4).setV 1 0xFF)).getV 0 = 2 ∧
    (run 0x8006 (State.reset.setV 0 0x80)).getV 0 = 0x40 := by decide

/-- ALU-23, ALU-24. -/
theorem test_shr_flag :
    (run 0x8006 (State.reset.setV 0 5)).getV 15 = 1 ∧ (run 0x8FF6 (State.reset.setV 15 3)).getV 15 = 1 := by decide

/-- ALU-25, ALU-27. -/
theorem test_subn :
    (run 0x8017 ((State.reset.setV 0 3).setV 1 10)).getV 0 = 7 ∧
    (run 0x8017 ((State.reset.setV 0 3).setV 1 10)).getV 15 = 0 ∧
    (run 0x80F7 ((State.reset.setV 0 2).setV 15 1)).getV 0 = 0xFF := by decide

/-- ALU-29: `y` is ignored. -/
theorem test_shl :
    (run 0x801E ((State.reset.setV 0 0x40).setV 1 0x80)).getV 0 = 0x80 ∧
    (run 0x801E ((State.reset.setV 0 0x40).setV 1 0x80)).getV 15 = 0 := by decide

/-- ALU-28, ALU-30. -/
theorem test_shl_flag :
    (run 0x800E (State.reset.setV 0 0x81)).getV 0 = 2 ∧ (run 0x8FFE (State.reset.setV 15 0x81)).getV 15 = 1 := by decide

/-- ALU-31. -/
theorem test_rnd : (after (cycle 0xB7 (State.reset.withFetchWord 16 0xC30F))).getV 3 = 0x07 := by decide

/-- ALU-33: whatever the free byte of `step`, mask 0 gives 0. -/
theorem test_rnd_masked : (after (step (State.reset.withFetchWord 16 0xC000))).getV 0 = 0 := by
  have h : ∀ b : Byte, b &&& 0#8 = 0#8 := fun b => by simp
  exact h _

/-- MEM-2. -/
theorem test_ld_i : (run 0xAFFF State.reset).I = 0x0FFF := by decide

/-- MEM-3, MEM-4. -/
theorem test_add_i :
    (run 0xF21E ((State.reset.withI 0x0FF0).setV 2 0x20)).I = 0x1010 ∧
    (run 0xF01E ((State.reset.withI 0xFFF0).setV 0 0x20)).I = 0x0010 := by decide

/-- MEM-5, MEM-6. -/
theorem test_ld_f :
    (run 0xF429 (State.reset.setV 4 0x0A)).I = 0x0032 ∧ (run 0xF029 (State.reset.setV 0 15)).I = 0x004B := by decide

/-- MEM-7: the whole register, not its low nibble. -/
theorem test_ld_f_fault :
    (run 0xF029 (State.reset.setV 0 16)).status = faulted .unrepresentableCharacter 0x200 0xF029 := by decide

/-- MEM-9, E5. -/
theorem test_bcd : (run 0xF033 ((State.reset.withI 0x300).setV 0 192)).bytesAt 0x300 4 = [1, 9, 2, 0] := by decide

/-- MEM-11, MEM-12. -/
theorem test_bcd_limits :
    (run 0xF033 ((State.reset.withI 0xFFD).setV 0 255)).bytesAt 0xFFD 3 = [2, 5, 5] ∧
    (run 0xF033 ((State.reset.withI 0xFFE).setV 0 255)).status = faulted .memoryOutOfBounds 0x200 0xF033 := by decide

/-- MEM-14. -/
theorem test_store :
    (run 0xF255 ((((State.reset.withI 0x300).setV 0 1).setV 1 2).setV 2 3)).bytesAt 0x300 4 = [1, 2, 3, 0] ∧
    (run 0xF255 ((((State.reset.withI 0x300).setV 0 1).setV 1 2).setV 2 3)).I = 0x300 := by decide

/-- MEM-16, MEM-21: the reserved area is writable. -/
theorem test_store_limits :
    (run 0xFF55 (State.reset.withI 0xFF1)).status = faulted .memoryOutOfBounds 0x200 0xFF55 ∧
    (run 0xF055 ((State.reset.withI 0x010).setV 0 0xAA)).byteAt 0x010 = 0xAA := by decide

/-- MEM-20: font glyph 0. -/
theorem test_load :
    (run 0xF465 State.reset).getV 0 = 0xF0 ∧ (run 0xF465 State.reset).getV 1 = 0x90 ∧
    (run 0xF465 State.reset).getV 4 = 0xF0 ∧ (run 0xF465 State.reset).getV 5 = 0 := by decide

/-- MEM-18, MEM-19. -/
theorem test_load_limits :
    (run 0xF065 (withData 0xFFF [0x77])).getV 0 = 0x77 ∧
    (run 0xF165 (State.reset.withI 0xFFF)).status = faulted .memoryOutOfBounds 0x200 0xF165 := by decide

/-- DRW-2 and DRW-4: clipping on the right, wrapping of the start. -/
theorem test_drw :
    cellAt (run 0xD011 ((withData 0x300 [0xFF]).setV 0 62)).D 0 63 = true ∧
    cellAt (run 0xD011 ((withData 0x300 [0xFF]).setV 0 62)).D 0 0 = false ∧
    cellAt (run 0xD011 (((withData 0x300 [0x80]).setV 0 64).setV 1 32)).D 0 0 = true := by decide

/-- DRW-6 and DRW-14: a collision; every byte is checked. -/
theorem test_drw_collision :
    (run 0xD011 ((withData 0x300 [0xC0]).withD (setCell State.reset.D 0 1 true))).getV 15 = 1 ∧
    (run 0xD012 ((State.reset.withI 0xFFF).setV 1 31)).status = faulted .memoryOutOfBounds 0x200 0xD012 := by decide

/-- KEY-1. -/
theorem test_ld_k :
    (run 0xF30A (State.reset.withPc 0x210)).status = .waitingForKey 3 ∧
    (run 0xF30A (State.reset.withPc 0x210)).pc = 0x212 := by decide

/-- KEY-3, KEY-4. -/
theorem test_key_down :
    (keyDown 2 (keyDown 0xB (run 0xF30A State.reset))).getV 3 = 0x0B ∧
    (keyDown 0xB (run 0xF30A State.reset)).status = .running := by decide

/-- CYC-2, CYC-3: the advance is checked first. -/
theorem test_advance_fault :
    (after (cycle 0 ((State.reset.withPc 4094).withMem [(4094, 0xFF), (4095, 0xFF)]))).status =
      faulted .illegalJumpTarget 4094 0xFFFF := by decide

/-- DEC-5. -/
theorem test_unimplemented : (run 0xE09E State.reset).status = faulted .unimplementedOpcode 0x200 0xE09E := by decide

/-- E7: the word at 0x200 is big-endian. -/
theorem test_fetch_big_endian :
    (construct [0x60, 0x07] Config.defaults).map (fun s => (after (cycle 0 s)).getV 0) = some 7 := by decide

/-- The free byte reaches `step` only through `Cxkk`: `step` runs a placed word. -/
theorem test_step_runs_placed_word : (after (step (State.reset.withFetchWord 16 0x6A55))).getV 10 = 0x55 := by decide

/-- R220's codes (EXC-6). -/
theorem test_fault_codes :
    [Fault.stackOverflow, .stackUnderflow, .illegalJumpTarget, .memoryOutOfBounds, .registerIndexOutOfRange,
      .unrepresentableCharacter, .unimplementedOpcode].map Fault.code = [1, 2, 3, 4, 5, 6, 7] := by decide

/-- R22: an indexed access past the file is the assertion's fault. -/
theorem test_register_index_assertion :
    readRegAt 16 State.reset = .error .registerIndexOutOfRange ∧
    writeRegAt 16 0 State.reset = .error .registerIndexOutOfRange ∧ readRegAt 15 State.reset = .ok 0 := by decide

/-- A store of the reset byte removes the entry: memory's canonical form. -/
theorem test_memory_canonical :
    Memory.write Config.defaults (Memory.write Config.defaults [] 0x300 5) 0x300 0 = [] ∧
    Memory.wf Config.defaults [(0x300, 5#8), (0x2FF, 1#8)] = false := by decide

/-! ## The statements' hypotheses hold somewhere

One theorem per statement of Certificates/Slice0/Obligations.lean that has hypotheses: concrete data that meet them, for each
clause, at a boundary of its range. -/

/-- A running machine with word `w` at `pc = a`. -/
def placedAt (a w : Nat) : State := (State.reset.withPc a).withFetchWord 16 w

/-- A running machine at `pc = a` with memory `m`, for addresses at which no word can be placed to run. -/
def atTop (a : Nat) (m : Memory) : State := (State.reset.withPc a).withMem m

theorem witness_EncodeOfDecode : decodeWord 0x8126 = .ok (.shrVx 1 2) := by rfl

theorem witness_DecoderAgreesWithOpcodeMap :
    decodeWord 0xF365 = .ok (.ldVxMem 3) ∧ decodeWord 0x5121 = .error (.unimplementedOpcode 0x5121) := ⟨rfl, rfl⟩

theorem witness_UnimplementedWordsFault :
    (placedAt 4092 0xE09E).status = .running ∧ (placedAt 4092 0xE09E).pc + 2 < 4095 ∧
    listedUnimplemented ((placedAt 4092 0xE09E).wordAt (placedAt 4092 0xE09E).pc) = true ∧
    listedUnimplemented 0xFFFF = true ∧ listedUnimplemented 0xF065 = false := by decide

theorem witness_StepRunsDecodedInstruction :
    (placedAt 4092 0x6001).aboutToRun (.ldVxKk 0 1) ∧ (placedAt 0 0x00E0).aboutToRun .cls := by
  refine ⟨⟨?_, ?_, rfl⟩, ⟨?_, ?_, rfl⟩⟩ <;> decide

theorem witness_AdvanceAndFetchFaults :
    (atTop 4093 []).status = .running ∧ (atTop 4093 []).pc = 4093 ∧ (atTop 4094 []).pc = 4094 ∧
    4095 ≤ (atTop 4095 []).pc ∧ (atTop 4095 []).status = .running := by decide

/-- CYC-4: and a key-down leaves the status. -/
theorem witness_WaitingCycleDoesNothing :
    (run 0xF30A State.reset).status = .waitingForKey 3 ∧
    ∃ t, transact (.keyDown 1) (run 0xF30A State.reset) = .next t ∧ t.status ≠ (run 0xF30A State.reset).status :=
  ⟨by decide, _, rfl, by decide⟩

theorem witness_EndedRunStaysEnded :
    (run 0x0000 State.reset).status.live = false ∧ (stop State.reset).status.live = false ∧
    (run 0x00EE State.reset).status.live = false := by decide

theorem witness_RandomByteReachesOnlyRnd :
    ∀ x kk, decodeWord ((placedAt 0x200 0x6001).wordAt (placedAt 0x200 0x6001).pc) ≠ .ok (.rndVxKk x kk) := by
  intro x kk h
  have : decodeWord ((placedAt 0x200 0x6001).wordAt (placedAt 0x200 0x6001).pc) = .ok (.ldVxKk 0 1) := rfl
  rw [this] at h
  cases h

theorem witness_JumpGoesToTarget :
    (0xFFE : Addr12).toNat < 4095 ∧ 4095 ≤ (0xFFF : Addr12).toNat ∧
    (placedAt 4092 0x1FFC).aboutToRun (.jpNnn 0xFFC) ∧ (0xFFC : Addr12).toNat = (placedAt 4092 0x1FFC).pc ∧
    BetweenCycles (placedAt 4092 0x1FFC) := by
  refine ⟨by decide, by decide, ⟨by decide, by decide, rfl⟩, by decide, by decide⟩

theorem witness_CallPushesAndJumps :
    (State.reset.withStack State.reset.S 15).SP.val < 16 ∧ (0xFFE : Addr12).toNat < 4095 ∧
    (State.reset.withStack State.reset.S 16).SP.val = 16 ∧ 4095 ≤ (0xFFF : Addr12).toNat := by decide

theorem witness_ReturnPopsTheStack :
    0 < (State.reset.withStack (State.reset.S.set 15 4094) 16).SP.val ∧
    (State.reset.withStack (State.reset.S.set 15 4094) 16).S[15] = 4094 ∧
    0 < (State.reset.withStack (State.reset.S.set 0 4095) 1).SP.val ∧
    (State.reset.withStack (State.reset.S.set 0 4095) 1).S[0] = 4095 ∧ State.reset.SP.val = 0 := by decide

theorem witness_SkipsFollowTheirConditions :
    ((State.reset.setV 1 7).withPc 4092).pc + 2 < 4095 ∧ 4095 ≤ ((State.reset.setV 1 7).withPc 4093).pc + 2 ∧
    (State.reset.setV 1 7).getV 1 = 7 ∧ (State.reset.setV 1 7).getV 1 ≠ 6 ∧
    State.reset.getV 1 = State.reset.getV 2 ∧ (State.reset.setV 1 7).getV 1 ≠ (State.reset.setV 1 7).getV 2 := by decide

theorem witness_ComputedJumpAddsV0 :
    (0xF80 : Addr12).toNat + ((State.reset.setV 0 0x7E).getV 0).toNat = 4094 ∧
    (0xF80 : Addr12).toNat + ((State.reset.setV 0 0x7F).getV 0).toNat = 4095 := by decide

theorem witness_CallsThenReturnsBalance :
    State.reset.SP.val + (List.replicate 16 ((4094 : Nat), (0xFFE : Addr12))).length ≤ 16 ∧
    ∀ e ∈ List.replicate 16 ((4094 : Nat), (0xFFE : Addr12)), e.1 < 4095 ∧ e.2.toNat < 4095 := by decide

theorem witness_AddSetsCarry :
    ((State.reset.setV 0 255).getV 0).toNat = 255 ∧ (((State.reset.setV 0 255).setV 1 1).getV 1).toNat = 1 := by decide

theorem witness_SubtractionsSetBorrow :
    ((State.reset.setV 0 3).getV 0).toNat = 3 ∧ (((State.reset.setV 0 3).setV 1 4).getV 1).toNat = 4 := by decide

theorem witness_ShiftsMoveOneBitOut : ((State.reset.setV 0 0x81).getV 0).toNat = 129 := by decide

theorem witness_RndMasksTheRandomByte : (placedAt 0x200 0xC30F).aboutToRun (.rndVxKk 3 0x0F) := by
  refine ⟨?_, ?_, rfl⟩ <;> decide

theorem witness_FontAddressOrFault :
    ((State.reset.setV 0 15).getV 0).toNat ≤ 15 ∧ (State.reset.setV 0 15).params.wellFormed = true ∧
    15 < ((State.reset.setV 0 16).getV 0).toNat := by decide

theorem witness_BcdStoresThreeDigits :
    MemoryCanonical (State.reset.withI 4093) ∧ dataBase (State.reset.withI 4093) + 3 = 4096 ∧
    dataBase (State.reset.withI 4094) + 3 = 4097 := by decide

theorem witness_BlockStoreWritesRegisters :
    MemoryCanonical (State.reset.withI 4080) ∧ dataBase (State.reset.withI 4080) + ((15 : Index).val + 1) = 4096 ∧
    dataBase (State.reset.withI 4081) + ((15 : Index).val + 1) = 4097 := by decide

theorem witness_BlockLoadReadsRegisters :
    dataBase (State.reset.withI 4095) + ((0 : Index).val + 1) = 4096 ∧
    dataBase (State.reset.withI 4095) + ((1 : Index).val + 1) = 4097 := by decide

theorem witness_BlockStoreThenLoadRestores :
    MemoryCanonical (State.reset.withI 4094) ∧
    ∃ t, exec (.ldMemVx 1) (State.reset.withI 4094) = .next t ∧ t.isFaulted = false :=
  ⟨by decide, after (exec (.ldMemVx 1) (State.reset.withI 4094)), rfl, by decide⟩

/-- CYC-7. -/
def selfModifying : State := (((State.reset.withI 0x202).setV 0 0x60).setV 1 0x2A).withFetchWord 16 0xF255

theorem witness_StoredInstructionRunsNext :
    MemoryCanonical selfModifying ∧ selfModifying.aboutToRun (.ldMemVx 2) ∧ 1 ≤ (2 : Index).val ∧
    selfModifying.I.toNat = selfModifying.pc + 2 ∧ selfModifying.pc + 4 < 4095 ∧
    selfModifying.pc + 2 + ((2 : Index).val + 1) ≤ 4096 ∧
    decodeWord (joinBytes (selfModifying.getV 0) (selfModifying.getV 1)) = .ok (.ldVxKk 0 0x2A) := by
  refine ⟨?_, ⟨?_, ?_, rfl⟩, ?_, ?_, ?_, ?_, rfl⟩ <;> decide

/-- One sprite row of one set bit at the last byte of memory, drawn at the last cell. -/
def corner : State := ((withData 4095 [0x80]).setV 0 63).setV 1 31

theorem witness_DrawTogglesCoveredCells :
    (corner.getV 0).toNat % 64 = 63 ∧ (corner.getV 1).toNat % 32 = 31 ∧ dataBase corner + (1 : Index).val = 4096 ∧
    4096 < dataBase corner + (2 : Index).val ∧
    SpriteCovers corner 63 31 1 31 63 ∧ ¬ SpriteCovers corner 63 31 1 31 62 ∧
    cellAt corner.D 31 63 = false ∧ cellAt (corner.withD (setCell corner.D 31 63 true)).D 31 63 = true := by
  refine ⟨by decide, by decide, by decide, by decide,
    ⟨0, 0, by decide, by decide, by decide, by decide, by decide⟩, ?_, by decide, by decide⟩
  rintro ⟨i, j, _, _, _, h, _⟩
  have h : 63 + j = 62 := h
  omega

theorem witness_DoubleDrawRestores :
    ∃ t u, exec (.drwVxVyD 0 1 1) corner = .next t ∧ t.isFaulted = false ∧ (t.getV 0).toNat % 64 = 63 ∧
      (t.getV 1).toNat % 32 = 31 ∧ exec (.drwVxVyD 0 1 1) t = .next u ∧ u.isFaulted = false ∧ u.getV 15 = 1 :=
  ⟨after (exec (.drwVxVyD 0 1 1) corner), after (exec (.drwVxVyD 0 1 1) (after (exec (.drwVxVyD 0 1 1) corner))), rfl,
    by decide, by decide, by decide, rfl, by decide, by decide⟩

/-- The case R187's words leave out: the covered cell was lit before the first draw, so the second draw collides with
nothing (R182, R184; log 11). -/
theorem witness_DoubleDrawRestores_lit :
    ∃ t u, exec (.drwVxVyD 0 1 1) (corner.withD (setCell corner.D 31 63 true)) = .next t ∧ t.isFaulted = false ∧
      t.getV 15 = 1 ∧ exec (.drwVxVyD 0 1 1) t = .next u ∧ u.isFaulted = false ∧ cellAt u.D 31 63 = true ∧
      u.getV 15 = 0 :=
  ⟨after (exec (.drwVxVyD 0 1 1) (corner.withD (setCell corner.D 31 63 true))),
    after (exec (.drwVxVyD 0 1 1) (after (exec (.drwVxVyD 0 1 1) (corner.withD (setCell corner.D 31 63 true))))), rfl,
    by decide, by decide, rfl, by decide, by decide, by decide⟩

theorem witness_DirtyIsSetByDisplayInstructions :
    (∃ t, exec (.drwVxVyD 0 1 1) corner = .next t ∧ t.isFaulted = false ∧ t.dirty ≠ corner.dirty) ∧
    (∃ t, exec .cls corner = .next t ∧ t.isFaulted = false ∧ t.dirty ≠ corner.dirty) ∧
    (∃ t, transact (.cycle 0) (placedAt 0x200 0x00E0) = .next t ∧ t.isFaulted = false ∧
      t.dirty ≠ (placedAt 0x200 0x00E0).dirty) ∧
    ∃ t, transact .clearDirty (State.reset.withDirty true) = .next t ∧ t.isFaulted = false ∧
      t.dirty ≠ (State.reset.withDirty true).dirty :=
  ⟨⟨after (exec (.drwVxVyD 0 1 1) corner), rfl, by decide, by decide⟩, ⟨_, rfl, by decide, by decide⟩,
    ⟨after (cycle 0 (placedAt 0x200 0x00E0)), rfl, by decide, by decide⟩, ⟨_, rfl, by decide, by decide⟩⟩

theorem witness_DisplayChangesOnlyByClsAndDrw :
    (∃ t, exec (.drwVxVyD 0 1 1) corner = .next t ∧ t.isFaulted = false ∧ t.D ≠ corner.D) ∧
    ∃ t, transact (.cycle 0) (corner.withFetchWord 16 0xD011) = .next t ∧ t.isFaulted = false ∧
      t.D ≠ (corner.withFetchWord 16 0xD011).D := by
  have ne : ∀ d e : Display, cellAt d 31 63 ≠ cellAt e 31 63 → d ≠ e := fun d e h he => h (he ▸ rfl)
  exact ⟨⟨after (exec (.drwVxVyD 0 1 1) corner), rfl, by decide, ne _ _ (by decide)⟩,
    after (cycle 0 (corner.withFetchWord 16 0xD011)), rfl, by decide, ne _ _ (by decide)⟩

theorem witness_KeyDownWritesTheTarget :
    (run 0xFF0A State.reset).status = .waitingForKey 15 ∧ ∀ y, State.reset.status ≠ .waitingForKey y :=
  ⟨by decide, fun _ h => by cases h⟩

theorem witness_KeyWaitResumesAfterTheInstruction : (placedAt 4092 0xFF0A).aboutToRun (.ldVxK 15) := by
  refine ⟨?_, ?_, rfl⟩ <;> decide

theorem witness_StatusFollowsTheWaitMachine :
    ∃ t, transact (.cycle 0) (placedAt 0x200 0xF30A) = .next t ∧ t.status = .waitingForKey 3 :=
  ⟨after (cycle 0 (placedAt 0x200 0xF30A)), rfl, by decide⟩

theorem witness_FaultRecordNamesTheInstruction :
    (∃ t, cycle 0 (atTop 4094 []) = .next t ∧ t.status = faulted .illegalJumpTarget 4094 0x0000) ∧
    ∃ t, cycle 0 (atTop 4095 []) = .next t ∧
      t.status = .faulted { kind := .memoryOutOfBounds, pc := 4095, opcode := none } :=
  ⟨⟨after (cycle 0 (atTop 4094 [])), rfl, by decide⟩, ⟨after (cycle 0 (atTop 4095 [])), rfl, by decide⟩⟩

theorem witness_InstructionsRaiseOnlyListedFaults :
    State.reset.isFaulted = false ∧
    ∃ t, exec .ret State.reset = .next t ∧
      t.status = .faulted { kind := .stackUnderflow, pc := 0, opcode := none } :=
  ⟨by decide, _, rfl, by decide⟩

theorem witness_RegisterIndexFaultIsNeverRaised :
    (placedAt 0x200 0x00EE).isFaulted = false ∧
    ∃ t, transact (.cycle 0) (placedAt 0x200 0x00EE) = .next t ∧ t.status = faulted .stackUnderflow 0x200 0x00EE :=
  ⟨by decide, after (cycle 0 (placedAt 0x200 0x00EE)), rfl, by decide⟩

theorem witness_StopEndsALiveRun :
    (run 0xF30A State.reset).status.live = true ∧ (run 0x0000 State.reset).status.live = false := by decide

/-- RST-3 and RST-4's lengths; a base at each end of R7's range. -/
theorem witness_ConstructLaysOutMemory :
    Config.defaults.wellFormed = true ∧ Config.defaults.programBase + (List.replicate 3584 (0x11#8)).length = 4096 ∧
    Config.defaults.programBase + (List.replicate 3585 (0x11#8)).length = 4097 ∧
    Params.wellFormed { Config.defaults with programBase := 4094, fontBase := 0x1B0 } = true := by
  refine ⟨by decide, by rw [List.length_replicate]; decide, by rw [List.length_replicate]; decide, by decide⟩

theorem witness_TransactionsKeepInvariant :
    Invariant (placedAt 4092 0x2FFE) ∧ (∃ t, step (placedAt 4092 0x2FFE) = .next t ∧ t.pc = 4094 ∧ t.SP.val = 1) ∧
    ∃ t, transact (.cycle 0) (placedAt 4092 0x2FFE) = .next t :=
  ⟨by decide, ⟨after (step (placedAt 4092 0x2FFE)), rfl, by decide, by decide⟩,
    ⟨after (cycle 0 (placedAt 4092 0x2FFE)), rfl⟩⟩

theorem witness_ReachableStatesMeetInvariant :
    ∃ s t, construct [0xF3, 0x0A] Config.defaults = some s ∧
      transactAll [.cycle 0, .cycle 1, .keyDown 11, .readStatus, .stop] s = .next t ∧ t.getV 3 = 11 ∧
      t.status = .stopped :=
  ⟨(State.initial Config.defaults).withMem [(0x200, 0xF3), (0x201, 0x0A)],
    after (transactAll [.cycle 0, .cycle 1, .keyDown 11, .readStatus, .stop]
      ((State.initial Config.defaults).withMem [(0x200, 0xF3), (0x201, 0x0A)])), rfl, rfl, by decide, by decide⟩

theorem witness_ParametersNeverChange :
    (∃ t, transact .stop State.reset = .next t) ∧ ∃ t, step (placedAt 0x200 0x6001) = .next t :=
  ⟨⟨_, rfl⟩, ⟨after (step (placedAt 0x200 0x6001)), rfl⟩⟩

theorem witness_RegistersChangeOnlyAsNamed :
    (∃ t, exec (.addVxKk 3 5) State.reset = .next t ∧ t.isFaulted = false ∧ t.getV 3 ≠ State.reset.getV 3) ∧
    writesFlag (.addVxVy 15 1) ∧ writesFlag (.drwVxVyD 0 1 1) ∧
    ∃ t, exec (.addVxVy 15 1) State.reset = .next t ∧ t.isFaulted = false :=
  ⟨⟨_, rfl, by decide, by decide⟩, .inl ⟨15, 1, .inl rfl⟩, .inr ⟨0, 1, 1, rfl⟩, ⟨_, rfl, by decide⟩⟩

theorem witness_OnlyStoresChangeMemory :
    ∃ t, transact (.cycle 0) selfModifying = .next t ∧ t.isFaulted = false ∧
      t.byteAt 0x202 ≠ selfModifying.byteAt 0x202 :=
  ⟨after (cycle 0 selfModifying), rfl, by decide, by decide⟩

theorem witness_ControlStateHasItsWriters :
    (∃ t, exec (.callNnn 0x300) State.reset = .next t ∧ t.isFaulted = false ∧ t.S ≠ State.reset.S ∧
      t.SP ≠ State.reset.SP ∧ t.pc ≠ State.reset.pc) ∧
    ∃ t, exec (.ldINnn 0x300) State.reset = .next t ∧ t.isFaulted = false ∧ t.I ≠ State.reset.I :=
  ⟨⟨after (exec (.callNnn 0x300) State.reset), rfl, by decide, by decide, by decide, by decide⟩,
    ⟨_, rfl, by decide, by decide⟩⟩

theorem witness_CanonicalMemoriesAreExtensional :
    Memory.wf Config.defaults (Memory.write Config.defaults (Memory.write Config.defaults [] 0x300 5) 0x2FF 1) = true ∧
    Memory.wf Config.defaults [(0x2FF, 1#8), (0x300, 5#8)] = true ∧
    ∀ a, Memory.read Config.defaults (Memory.write Config.defaults (Memory.write Config.defaults [] 0x300 5) 0x2FF 1) a =
      Memory.read Config.defaults [(0x2FF, 1#8), (0x300, 5#8)] a :=
  ⟨by decide, by decide, fun _ => rfl⟩

end Sys2Proof.Tests
end

section
/-! The state's family (10_state.md): the invariant of every state between transactions, the transactions that only read,
and those that find an ended run. -/

namespace Sys2Proof.Machine

/-! ### What an instruction's effect keeps of the invariant (10_state.md R25, R28; 20_memory.md R50) -/

section Effect

variable {i : Instr} {s t : State}

theorem Effect.pc_le (e : Effect i s t) (h : s.pc ≤ 4094) : t.pc ≤ 4094 := by
  rcases e.pc with hpc | ⟨-, hpc⟩ <;> omega

/-- A call pushes the `pc` it executes at, a legal target if that `pc` is one; no other instruction writes a slot. -/
theorem Effect.slots_le (e : Effect i s t) (hpc : s.pc ≤ 4094) (hS : ∀ j : Fin 16, s.S[j.val] ≤ 4094) (j : Fin 16) :
    t.S[j.val] ≤ 4094 := by
  rcases e.slots with hslots | ⟨_, k, -, hk, hslots⟩
  · simpa only [hslots] using hS j
  · simp only [hslots, Vector.getElem_set]
    split
    · exact hpc
    · exact hS j

theorem Effect.memoryCanonical (e : Effect i s t) (h : MemoryCanonical s) : MemoryCanonical t := by
  unfold MemoryCanonical at h ⊢
  rw [e.params]
  rcases e.mem with hmem | ⟨-, a, bs, hfit, hmem⟩
  · rwa [hmem]
  · rw [hmem]
    exact Memory.wf_writeList h hfit

end Effect

/-! ### The invariant after each kind of state change -/

/-- Once the run has ended the invariant asks nothing of `pc` and the stack. -/
theorem invariant_of_ended {s t : State} (h : Invariant s) (hlive : t.status.live = false) (hmem : t.mem = s.mem)
    (hparams : t.params = s.params) (hcyc : t.cyc = CycleArgs.idle) : Invariant t := by
  obtain ⟨-, -, hm, -, hp⟩ := h
  refine ⟨?_, ?_, ?_, hcyc, by rwa [hparams]⟩
  · simp [PcInWindow, hlive]
  · simp [StackHoldsTargets, hlive]
  · rwa [MemoryCanonical, hparams, hmem]

/-- An instruction that runs from an advanced `pc` and does not fault keeps the invariant over its cycle. -/
theorem invariant_of_effect {r : Byte} {i : Instr} {s u : State} (h : Invariant s) (hrun : s.aboutToRun i)
    (e : Effect i (s.inExecute r) u) : Invariant u.endCycle := by
  obtain ⟨-, hS, hm, -, hp⟩ := h
  obtain ⟨hst, hadv, -⟩ := hrun
  have hpc : (s.inExecute r).pc ≤ 4094 := by simpa using Nat.le_of_lt_succ hadv
  have hslots : ∀ j : Fin 16, (s.inExecute r).S[j.val] ≤ 4094 := hS (by rw [hst]; rfl)
  exact ⟨fun _ => e.pc_le hpc, fun _ => e.slots_le hpc hslots, e.memoryCanonical (s := s.inExecute r) hm, rfl,
    by simpa [e.params] using hp⟩

theorem cycle_keeps_invariant {r : Byte} {s t : State} (h : Invariant s) (hc : cycle r s = .next t) : Invariant t := by
  by_cases hst : s.status = .running
  · rcases cycle_cases hst hc with ⟨-, rfl⟩ | ⟨-, rfl⟩ | ⟨-, -, rfl⟩ | ⟨i, u, hrun, hexec, rfl⟩
    · exact invariant_of_ended h rfl rfl rfl rfl
    · exact invariant_of_ended h rfl rfl rfl rfl
    · exact invariant_of_ended h rfl rfl rfl rfl
    · rcases exec_effect i _ u hexec with ⟨k, rfl⟩ | e
      · exact invariant_of_ended h rfl rfl rfl rfl
      · exact invariant_of_effect h hrun e
  · rw [cycle_not_running r hst] at hc
    cases hc
    exact h

/-- A key ends a wait, which is as live as the running status it gives way to. -/
theorem keyDown_keeps_invariant {s : State} (k : Index) (h : Invariant s) : Invariant (keyDown k s) := by
  rcases keyDown_cases k s with ⟨y, hst, heq⟩ | ⟨-, heq⟩
  · obtain ⟨hpc, hS, hrest⟩ := h
    have hlive : s.status.live = true := by rw [hst]; rfl
    rw [heq]
    exact ⟨fun _ => hpc hlive, fun _ => hS hlive, hrest⟩
  · rwa [heq]

theorem stop_keeps_invariant {s : State} (h : Invariant s) : Invariant (stop s) := by
  rcases stop_cases s with ⟨-, heq⟩ | ⟨-, heq⟩
  · rw [heq]
    have ⟨_, _, _, hidle, _⟩ := h
    exact invariant_of_ended h rfl rfl rfl hidle
  · rwa [heq]

theorem transact_keeps_invariant {x : Transaction} {s t : State} (h : Invariant s) (hx : transact x s = .next t) :
    Invariant t := by
  cases x with
  | cycle r => exact cycle_keeps_invariant h hx
  | keyDown k => cases hx; exact keyDown_keeps_invariant k h
  | stop => cases hx; exact stop_keeps_invariant h
  | clearDirty => cases hx; exact h
  | readReg _ | snapshot | readStatus => cases hx; exact h

/-- Settles O52: a cycle keeps the invariant by the ways it can end, and a step is a cycle. -/
theorem transactionsKeepInvariant : Obligations.TransactionsKeepInvariant :=
  ⟨fun _ _ h hstep => cycle_keeps_invariant h hstep, fun _ _ _ h hx => transact_keeps_invariant h hx⟩

/-! ### The invariant of every reachable state (10_state.md R25; 40_cycle.md R109) -/

theorem initial_meets_invariant {p : Params} (hp : p.wellFormed = true) : Invariant (State.initial p) := by
  obtain ⟨-, hbase, -⟩ := (params_wellFormed_iff p).1 hp
  refine ⟨fun _ => hbase, fun _ j => ?_, Memory.wf_nil, rfl, hp⟩
  simp [State.initial]

theorem construct_meets_invariant {image : List Byte} {p : Params} {s : State} (h : construct image p = some s) :
    Invariant s := by
  unfold construct at h
  split at h
  · next hok =>
    obtain ⟨hp, hfit⟩ := Bool.and_eq_true_iff.1 hok
    obtain ⟨hpc, hS, -, hcyc, -⟩ := initial_meets_invariant hp
    cases h
    exact ⟨hpc, hS, Memory.wf_writeList Memory.wf_nil ((params_imageFits_iff p image).1 hfit), hcyc, hp⟩
  · cases h

theorem transactAll_keeps_invariant {xs : List Transaction} {s t : State} (h : Invariant s)
    (hxs : transactAll xs s = .next t) : Invariant t := by
  induction xs generalizing s with
  | nil => cases hxs; exact h
  | cons x xs ih =>
    unfold transactAll at hxs
    split at hxs
    · next u hu => exact ih (transact_keeps_invariant h hu) hxs
    · cases hxs
    · cases hxs

/-- A fetch from a two-byte window answers the word there; it reads nothing of the cycle's arguments. -/
theorem fetch_in_window {s : State} (h : s.pc ≤ 4094) : fetch s = .ok (s.wordAt s.pc) :=
  (fetch_beginCycle s 0).trans (if_pos (by omega))

/-- Settles O53: construction establishes the invariant and every transaction of the sequence keeps it. -/
theorem reachableStatesMeetInvariant : Obligations.ReachableStatesMeetInvariant := by
  intro image p xs s t hs hxs
  have hinv := transactAll_keeps_invariant (construct_meets_invariant hs) hxs
  have ⟨hwindow, _⟩ := hinv
  exact ⟨hinv, fun hlive => fetch_in_window (hwindow hlive)⟩

/-- Settles O51: reset is the initial state of the default parameters, which are legal. -/
theorem resetMeetsInvariant : Obligations.ResetMeetsInvariant :=
  initial_meets_invariant (p := Config.defaults) (by decide)

/-! ### An ended run (10_state.md R35; 40_cycle.md R105; 60_exceptions.md R227, R232) -/

section Ended

variable {s : State} (h : s.status.live = false)
include h

theorem cycle_ended (r : Byte) : cycle r s = .next s :=
  cycle_not_running r fun hst => by simp [hst, Status.live] at h

theorem keyDown_ended (k : Index) : keyDown k s = s := by
  rcases keyDown_cases k s with ⟨y, hst, -⟩ | ⟨-, heq⟩
  · simp [hst, Status.live] at h
  · exact heq

theorem stop_ended : stop s = s := by
  rcases stop_cases s with ⟨hlive, -⟩ | ⟨-, heq⟩
  · simp [hlive] at h
  · exact heq

end Ended

/-- Settles O9: of the transactions only `clear_dirty` changes an ended machine at all, and it leaves the status. -/
theorem endedRunStaysEnded : Obligations.EndedRunStaysEnded := by
  intro s h
  have hcycle := cycle_ended h
  have hkey : ∀ k, transact (.keyDown k) s = .next s := fun k => congrArg _ (keyDown_ended h k)
  have hstop : transact .stop s = .next s := congrArg _ (stop_ended h)
  refine ⟨fun x => ?_, hcycle, hkey, hstop, hcycle _⟩
  cases x with
  | cycle r => exact ⟨s, hcycle r, rfl⟩
  | keyDown k => exact ⟨s, hkey k, rfl⟩
  | stop => exact ⟨s, hstop, rfl⟩
  | clearDirty => exact ⟨clearDirty s, rfl, rfl⟩
  | readReg _ | snapshot | readStatus => exact ⟨s, rfl, rfl⟩

/-! ### The host's readers (10_state.md R41 to R43) -/

/-- Settles O48: the cells are answered in the order of `rowMajor_getElem`. -/
theorem snapshotAndClearDirty : Obligations.SnapshotAndClearDirty :=
  fun s => ⟨rfl, ⟨rowMajor s.D, rfl, rowMajor_getElem s.D⟩, rfl⟩

/-- Settles O47: both transactions answer a field and leave the state, by definition. -/
theorem readersChangeNothing : Obligations.ReadersChangeNothing :=
  fun _ _ => ⟨rfl, rfl, rfl, rfl⟩

end Sys2Proof.Machine
end

section
/-! What an unfaulted instruction leaves of the general registers, `I` and the stack pointer (10_state.md R21, R27, R28,
R38 and its section 7). -/

namespace Sys2Proof.Machine

/-! ### What the shared operations leave, when they do not fault -/

theorem skipIf_eq_ok {c : Bool} {s u : State} (h : skipIf c s = .ok u) : ∃ n, u = s.withPc n := by
  cases c with
  | false => cases h; exact ⟨s.pc, rfl⟩
  | true => exact ⟨_, (setPc_eq_ok.1 h).2⟩

theorem push_eq_ok {v : Nat} {s u : State} (h : push v s = .ok u) : ∃ slots sp, u = s.withStack slots sp := by
  by_cases hroom : s.SP.val < 16
  · rw [push_room v hroom] at h
    cases h
    exact ⟨_, _, rfl⟩
  · rw [push_full v hroom] at h
    cases h

theorem pop_eq_ok {v : Nat} {s u : State} (h : pop s = .ok (v, u)) : ∃ sp, u = s.withStack s.S sp := by
  by_cases hz : s.SP.val = 0
  · rw [pop_empty hz] at h
    cases h
  · rw [pop_some hz] at h
    cases h
    exact ⟨_, rfl⟩

theorem memRead_eq_ok {a n : Nat} {s : State} {bs : List Byte} (h : memRead a n s = .ok bs) : bs = s.bytesAt a n := by
  rw [memRead_eq] at h
  split at h <;> cases h
  rfl

theorem memWrite_eq_ok {a : Nat} {bs : List Byte} {s u : State} (h : memWrite a bs s = .ok u) :
    ∃ m, u = s.withMem m := by
  rw [memWrite_eq] at h
  split at h <;> cases h
  exact ⟨_, rfl⟩

/-! ### One walk over the instructions -/

/-- What an unfaulted instruction leaves of the fields that `Effect` does not speak of. -/
structure RegisterEffect (i : Instr) (s t : State) : Prop where
  kept : ∀ j, writtenRegisters i j = false → t.getV j = s.getV j
  flag : writesFlag i → ∃ b, t.getV VF = flagByte b
  addr : t.I = s.I ∨ (∃ n, i = .ldINnn n) ∨ ∃ x, i = .addIVx x ∨ i = .ldFVx x
  sp   : t.SP = s.SP ∨ i = .ret ∨ ∃ n, i = .callNnn n

theorem exec_registerEffect {i : Instr} {s t : State} (h : exec i s = .next t) (ht : t.isFaulted = false) :
    RegisterEffect i s t := by
  cases i with
  | halt | cls | ldVxK | ldINnn | addIVx =>
    cases h
    constructor <;> simp [writesFlag]
  | ret =>
    obtain ⟨⟨v, u⟩, hpop, hset⟩ := bind_eq_ok.1 (attempt_unfaulted h ht)
    obtain ⟨sp, rfl⟩ := pop_eq_ok hpop
    obtain ⟨-, rfl⟩ := setPc_eq_ok.1 hset
    constructor <;> simp [writesFlag]
  | callNnn nnn =>
    obtain ⟨u, hpush, hset⟩ := bind_eq_ok.1 (attempt_unfaulted h ht)
    obtain ⟨slots, sp, rfl⟩ := push_eq_ok hpush
    obtain ⟨-, rfl⟩ := setPc_eq_ok.1 hset
    constructor <;> simp [writesFlag]
  | jpNnn nnn | jpV0Nnn nnn =>
    obtain ⟨-, rfl⟩ := setPc_eq_ok.1 (attempt_unfaulted h ht)
    constructor <;> simp [writesFlag]
  | seVxKk x kk | sneVxKk x kk | seVxVy x y | sneVxVy x y =>
    obtain ⟨n, rfl⟩ := skipIf_eq_ok (attempt_unfaulted h ht)
    constructor <;> simp [writesFlag]
  | ldVxKk x _ | addVxKk x _ | ldVxVy x _ | orVxVy x _ | andVxVy x _ | xorVxVy x _ | rndVxKk x _ =>
    cases h
    constructor <;> simp +contextual [writesFlag, writtenRegisters, State.getV_setV]
  | addVxVy x _ | subVxVy x _ | shrVx x _ | subnVxVy x _ | shlVx x _ =>
    cases h
    constructor <;> simp +contextual [writtenRegisters, getV_writeWithFlag, VF]
  | drwVxVyD x y d =>
    obtain ⟨rows, -, hdraw⟩ := bind_eq_ok.1 (attempt_unfaulted h ht)
    cases hdraw
    constructor <;> simp +contextual [writtenRegisters, State.getV_setV, VF]
  | ldFVx x =>
    have hok := attempt_unfaulted h ht
    split at hok <;> cases hok
    constructor <;> simp [writesFlag]
  | ldBVx x =>
    obtain ⟨m, rfl⟩ := memWrite_eq_ok (attempt_unfaulted h ht)
    constructor <;> simp [writesFlag]
  | ldMemVx x =>
    obtain ⟨bs, -, hwrite⟩ := bind_eq_ok.1 (attempt_unfaulted h ht)
    obtain ⟨m, rfl⟩ := memWrite_eq_ok hwrite
    constructor <;> simp [writesFlag]
  | ldVxMem x =>
    obtain ⟨bs, hread, hwrite⟩ := bind_eq_ok.1 (attempt_unfaulted h ht)
    have hlen : bs.length = x.val + 1 := by rw [memRead_eq_ok hread, bytesAt_length]
    obtain ⟨V, hV, hget⟩ := writeRegs_ok (k := 0) (bs := bs) s (by omega)
    rw [hV] at hwrite
    cases hwrite
    constructor
    case kept =>
      intro j hj
      have hj : ¬ j.val < bs.length := by
        simp only [writtenRegisters, decide_eq_false_iff_not, Fin.le_def] at hj
        omega
      exact (hget j).trans (if_neg (by omega))
    all_goals simp [writesFlag]

/-- Settles O55: the registers outside the table's are kept, and a flag writer leaves a flag byte in `VF`. -/
theorem registersChangeOnlyAsNamed : Obligations.RegistersChangeOnlyAsNamed := by
  refine ⟨fun i s t j h ht hne => ?_, fun i s t hi h ht => ?_⟩
  · by_contra hw
    exact hne ((exec_registerEffect h ht).kept j (Bool.eq_false_iff.2 hw))
  · obtain ⟨b, hb⟩ := (exec_registerEffect h ht).flag hi
    cases b with
    | false => exact .inl hb
    | true => exact .inr hb

/-- Settles O57: the writers of the slots and of `pc` are those of `Effect`, of `I` and `SP` those of
`RegisterEffect`. -/
theorem controlStateHasItsWriters : Obligations.ControlStateHasItsWriters := by
  intro i s t h ht
  have hreg := exec_registerEffect h ht
  rcases exec_effect i s t h with ⟨k, rfl⟩ | heff
  · simp at ht
  · refine ⟨hreg.addr.resolve_left, fun hS => ?_, hreg.sp.resolve_left, fun hpc => ?_⟩
    · obtain ⟨n, -, hi, -⟩ := heff.slots.resolve_left hS
      exact ⟨n, hi⟩
    · exact (heff.pc.resolve_left hpc).1

end Sys2Proof.Machine
end

section
/-! The memory family (20_memory.md): an instruction's two bytes as memory holds them, the canonical form of memory, and
the instructions that store. -/

/-! ### Decoding an encoding (30_encoding.md R74; 20_memory.md R53) -/

namespace Sys2Proof

open Sys2Proof.Laws

/-- The opcode map reads every instruction back from its word, row by row of the map. -/
theorem decodeMap_encode : ∀ i : Instr, decodeMap (encode i) = some i
  | .halt => RoundTrip.halt
  | .cls => RoundTrip.cls
  | .ret => RoundTrip.ret
  | .jpNnn nnn => RoundTrip.jpNnn nnn
  | .callNnn nnn => RoundTrip.callNnn nnn
  | .seVxKk x kk => RoundTrip.seVxKk x kk
  | .sneVxKk x kk => RoundTrip.sneVxKk x kk
  | .seVxVy x y => RoundTrip.seVxVy x y
  | .ldVxKk x kk => RoundTrip.ldVxKk x kk
  | .addVxKk x kk => RoundTrip.addVxKk x kk
  | .ldVxVy x y => RoundTrip.ldVxVy x y
  | .orVxVy x y => RoundTrip.orVxVy x y
  | .andVxVy x y => RoundTrip.andVxVy x y
  | .xorVxVy x y => RoundTrip.xorVxVy x y
  | .addVxVy x y => RoundTrip.addVxVy x y
  | .subVxVy x y => RoundTrip.subVxVy x y
  | .shrVx x y => RoundTrip.shrVx x y
  | .subnVxVy x y => RoundTrip.subnVxVy x y
  | .shlVx x y => RoundTrip.shlVx x y
  | .sneVxVy x y => RoundTrip.sneVxVy x y
  | .ldINnn nnn => RoundTrip.ldINnn nnn
  | .jpV0Nnn nnn => RoundTrip.jpV0Nnn nnn
  | .rndVxKk x kk => RoundTrip.rndVxKk x kk
  | .drwVxVyD x y d => RoundTrip.drwVxVyD x y d
  | .ldVxK x => RoundTrip.ldVxK x
  | .addIVx x => RoundTrip.addIVx x
  | .ldFVx x => RoundTrip.ldFVx x
  | .ldBVx x => RoundTrip.ldBVx x
  | .ldMemVx x => RoundTrip.ldMemVx x
  | .ldVxMem x => RoundTrip.ldVxMem x

@[simp] theorem decodeWord_encode (i : Instr) : decodeWord (encode i) = .ok i :=
  (decodeWord_ok_iff _ i).2 (decodeMap_encode i)

/-- Settles O1: the two bytes join to the instruction's word, which the opcode map reads back. -/
theorem decodeOfEncode : Obligations.DecodeOfEncode := by
  intro i rest
  have hword := decodeWord_encode i
  exact ⟨hword, by rw [decodeBytes_encodeBytes, hword]⟩

end Sys2Proof

/-! ### Canonical memories (20_memory.md R60) -/

namespace Sys2Proof.Machine.Memory

variable {p : Params} {lo a : Nat} {b : Byte} {m m' rest : Memory}

@[simp] theorem find_cons_self : find a ((a, b) :: rest) = some b := if_pos rfl

theorem find_cons_ne {a' : Nat} (h : a' ≠ a) : find a' ((a, b) :: rest) = find a' rest := if_neg h

/-- Addresses rise, so none below the head's is listed. -/
theorem head_le_of_find {a' : Nat} {b' : Byte} (h : wfFrom p lo ((a, b) :: rest) = true)
    (hf : find a' ((a, b) :: rest) = some b') : a ≤ a' := by
  by_contra hlt
  obtain ⟨-, ha, hb, hrest⟩ := wfFrom_cons.1 h
  have hnone := find_eq_none (wfFrom_cons.2 ⟨le_rfl, ha, hb, hrest⟩) (Nat.lt_of_not_le hlt)
  simp [hnone] at hf

/-- A canonical memory lists no byte that its address reads as unlisted. -/
theorem ne_resetByte_of_find (h : wfFrom p lo m = true) (hf : m.find a = some b) : b ≠ resetByte p a := by
  induction m generalizing lo with
  | nil => cases hf
  | cons e rest ih =>
    obtain ⟨a₁, b₁⟩ := e
    obtain ⟨-, -, hb, hrest⟩ := wfFrom_cons.1 h
    by_cases ha : a = a₁
    · subst ha
      cases find_cons_self.symm.trans hf
      exact hb
    · exact ih hrest ((find_cons_ne ha).symm.trans hf)

/-- What a canonical memory lists is determined by what it reads as. -/
theorem find_eq_read (h : m.wf p = true) (a : Nat) :
    m.find a = if m.read p a = resetByte p a then none else some (m.read p a) := by
  unfold read
  cases hf : m.find a with
  | none => simp
  | some b => simp [ne_resetByte_of_find h hf]

/-- Lists with rising addresses that list the same bytes are equal. -/
theorem eq_of_find_eq (h : wfFrom p lo m = true) (h' : wfFrom p lo m' = true) (hfind : ∀ a, m.find a = m'.find a) :
    m = m' := by
  induction m generalizing lo m' with
  | nil =>
    cases m' with
    | nil => rfl
    | cons e' rest' => exact absurd (hfind e'.1) (by simp [find])
  | cons e rest ih =>
    obtain ⟨a, b⟩ := e
    cases m' with
    | nil => exact absurd (hfind a) (by simp [find])
    | cons e' rest' =>
      obtain ⟨a', b'⟩ := e'
      have haddr : a = a' :=
        le_antisymm (head_le_of_find h ((hfind a').trans find_cons_self))
          (head_le_of_find h' ((hfind a).symm.trans find_cons_self))
      subst haddr
      have hbyte : b = b' := by simpa using hfind a
      obtain ⟨-, -, -, hrest⟩ := wfFrom_cons.1 h
      obtain ⟨-, -, -, hrest'⟩ := wfFrom_cons.1 h'
      rw [hbyte, ih hrest hrest' fun c => ?_]
      by_cases hc : c = a
      · rw [hc, find_eq_none hrest (Nat.lt_succ_self a), find_eq_none hrest' (Nat.lt_succ_self a)]
      · simpa only [find_cons_ne hc] using hfind c

end Sys2Proof.Machine.Memory

namespace Sys2Proof.Machine

/-- Settles O58: equal reads list equal bytes, and the list in rising order is determined by what it lists. -/
theorem canonicalMemoriesAreExtensional : Obligations.CanonicalMemoriesAreExtensional := by
  intro p m m' h h' hread
  exact Memory.eq_of_find_eq h h' fun a => by rw [Memory.find_eq_read h, Memory.find_eq_read h', hread a]

/-! ### What changes memory (20_memory.md R63) -/

theorem byteAt_congr {s t : State} (hmem : t.mem = s.mem) (hparams : t.params = s.params) (a : Nat) :
    t.byteAt a = s.byteAt a := by
  rw [State.byteAt, State.byteAt, hmem, hparams]

/-- An unfaulted cycle that changes a byte runs one of the two stores. -/
theorem cycle_changes_memory {r : Byte} {s t : State} {a : Nat} (h : cycle r s = .next t) (ht : t.isFaulted = false)
    (ha : t.byteAt a ≠ s.byteAt a) : ∃ vx, s.aboutToRun (.ldBVx vx) ∨ s.aboutToRun (.ldMemVx vx) := by
  by_cases hst : s.status = .running
  · rcases cycle_cases hst h with ⟨-, rfl⟩ | ⟨-, rfl⟩ | ⟨-, -, rfl⟩ | ⟨i, u, hrun, hexec, rfl⟩
    · simp at ht
    · simp at ht
    · simp at ht
    · rcases exec_effect i _ u hexec with ⟨k, rfl⟩ | e
      · simp at ht
      · have hmem : u.mem ≠ s.mem := fun hmem => ha (byteAt_congr (t := u.endCycle) hmem e.params a)
        obtain ⟨⟨vx, rfl | rfl⟩, -⟩ := e.mem.resolve_left hmem
        · exact ⟨vx, .inl hrun⟩
        · exact ⟨vx, .inr hrun⟩
  · rw [cycle_not_running r hst] at h
    cases h
    exact absurd rfl ha

theorem keyDown_byteAt (k : Index) (s : State) (a : Nat) : (keyDown k s).byteAt a = s.byteAt a := by
  rcases keyDown_cases k s with ⟨y, -, heq⟩ | ⟨-, heq⟩ <;> simp [heq]

theorem stop_byteAt (s : State) (a : Nat) : (stop s).byteAt a = s.byteAt a := by
  rcases stop_cases s with ⟨-, heq⟩ | ⟨-, heq⟩ <;> simp [heq]

/-- Settles O56: no transaction but a cycle changes a byte, and of the instructions only the two stores have an effect on
memory. -/
theorem onlyStoresChangeMemory : Obligations.OnlyStoresChangeMemory := by
  intro x s t a h ht ha
  cases x with
  | cycle r => exact ⟨⟨r, rfl⟩, cycle_changes_memory h ht ha⟩
  | keyDown k => cases h; exact absurd (keyDown_byteAt k s a) ha
  | stop => cases h; exact absurd (stop_byteAt s a) ha
  | readReg _ | snapshot | clearDirty | readStatus => cases h; exact absurd rfl ha

/-! ### A stored instruction (20_memory.md R62; 70_reset_and_hazards.md R260) -/

/-- A cycle that is about to run `i` executes it and ends (40_cycle.md R100). -/
theorem cycle_aboutToRun {i : Instr} {s : State} (r : Byte) (h : s.aboutToRun i) :
    cycle r s = onNext State.endCycle (exec i (s.inExecute r)) := by
  obtain ⟨hst, hadv, hword⟩ := h
  rw [cycle_running r hst, runCycle_eq, if_neg (by omega), if_neg (by omega), execute_ok _ hword]

/-- LD [I], Vx inside memory leaves `V[0]` to `V[x]` at `I` on, every other byte and all else as it was
(43_memory_ops.md R166). -/
theorem exec_ldMemVx {x : Index} {s : State} (hm : MemoryCanonical s) (hfit : dataBase s + (x.val + 1) ≤ 4096) :
    ∃ m, exec (.ldMemVx x) s = .next (s.withMem m) ∧
      (∀ j : Index, j ≤ x → (s.withMem m).byteAt (dataBase s + j.val) = s.getV j) ∧
      ∀ a, a < dataBase s ∨ dataBase s + (x.val + 1) ≤ a → (s.withMem m).byteAt a = s.byteAt a := by
  obtain ⟨bs, hread, hlen, hget⟩ := readRegs_ok s (k := 0) (n := x.val + 1) (by omega)
  rw [← hlen] at hfit ⊢
  refine ⟨s.mem.writeList s.params (dataBase s) bs, ?_, fun j hj => ?_, fun a ha => ?_⟩
  · simp only [exec, execLdMemVx, hread, bind_ok, memWrite_eq, if_pos hfit, attempt_ok]
  · have hj : j.val < x.val + 1 := Nat.lt_succ_of_le hj
    rw [byteAt_withMem_writeList _ hm hfit, if_pos (by omega), Nat.add_sub_cancel_left]
    exact hget j (Nat.zero_le _) (by omega)
  · rw [byteAt_withMem_writeList _ hm hfit, if_neg (by omega)]

/-- Settles O33: the store's first two bytes are the word at the advanced `pc`. -/
theorem storedInstructionRunsNext : Obligations.StoredInstructionRunsNext := by
  intro r x i s hm hrun hx hI hpc hfit hword
  have hbase : dataBase (s.inExecute r) = s.pc + 2 := hI
  obtain ⟨m, hexec, hstored, -⟩ := exec_ldMemVx (s := s.inExecute r) (x := x) hm (by rwa [hbase])
  rw [hbase] at hstored
  have h0 : m.read s.params (s.pc + 2) = s.getV 0 := hstored 0 (Fin.zero_le x)
  have h1 : m.read s.params (s.pc + 2 + 1) = s.getV 1 := hstored 1 hx
  refine ⟨((s.inExecute r).withMem m).endCycle, by rw [cycle_aboutToRun r hrun, hexec, onNext_next], hrun.1, hpc, ?_⟩
  simpa [State.wordAt, h0, h1] using hword

end Sys2Proof.Machine
end

section
/-! The encoding family (30_encoding.md): the decoder's inverse, its agreement with the opcode map's masks and matches, and
the words that are no instruction. -/

namespace Sys2Proof

open Sys2Proof.Laws Sys2Proof.Machine

/-! ### A word is made of its fields (R70, R71) -/

section Fields

variable {w : Word} {c : BitVec 4} (hc : (fieldsOf w).c.toNat = c.toNat)
include hc

theorem encodeNnn_fieldsOf : encodeNnn c (fieldsOf w).nnn = w := by
  apply BitVec.eq_of_toNat_eq
  rw [encodeNnn_toNat, ← hc, fieldsOf_c, fieldsOf_nnn]
  omega

theorem encodeXkk_fieldsOf : encodeXkk c (fieldsOf w).x.toFin (fieldsOf w).kk = w := by
  apply BitVec.eq_of_toNat_eq
  rw [encodeXkk_toNat, ← hc, BitVec.val_toFin, fieldsOf_c, fieldsOf_x, fieldsOf_kk]
  omega

theorem encodeXyd_fieldsOf : encodeXyd c (fieldsOf w).x.toFin (fieldsOf w).y.toFin (fieldsOf w).d = w := by
  apply BitVec.eq_of_toNat_eq
  rw [encodeXyd_toNat, ← hc, BitVec.val_toFin, BitVec.val_toFin, fieldsOf_c, fieldsOf_x, fieldsOf_y, fieldsOf_d]
  omega

end Fields

/-! ### What each class of the opcode map reads is encoded by the word it reads (R75, R76) -/

theorem encode_of_decodeClass0 {w : Word} {i : Instr} (h : decodeClass0 w = some i) : encode i = w := by
  simp only [decodeClass0, ite_eq_iff, Option.some.injEq, reduceCtorEq, and_false, or_false] at h
  rcases h with ⟨rfl, rfl⟩ | ⟨-, ⟨rfl, rfl⟩ | ⟨-, rfl, rfl⟩⟩ <;> rfl

theorem encode_of_decodeClass8 {x y : Index} {d : BitVec 4} {i : Instr} (h : decodeClass8 x y d.toNat = some i) :
    encode i = encodeXyd 0x8#4 x y d := by
  unfold decodeClass8 at h
  split at h
  case h_10 => cases h
  all_goals
    next hd =>
      cases h
      exact congrArg (encodeXyd 0x8#4 x y) (BitVec.eq_of_toNat_eq hd.symm)

theorem encode_of_decodeClassF {x : Index} {kk : Byte} {i : Instr} (h : decodeClassF x kk = some i) :
    encode i = encodeXkk 0xF#4 x kk := by
  simp only [decodeClassF, ite_eq_iff, Option.some.injEq, reduceCtorEq, and_false, or_false] at h
  rcases h with ⟨rfl, rfl⟩ | ⟨-, ⟨rfl, rfl⟩ | ⟨-, ⟨rfl, rfl⟩ | ⟨-, ⟨rfl, rfl⟩ | ⟨-, ⟨rfl, rfl⟩ | ⟨-, rfl, rfl⟩⟩⟩⟩⟩ <;> rfl

/-- The split's case `h_k` is class `k - 1`, the last one no class at all. -/
theorem encode_of_decodeMap {w : Word} {i : Instr} (h : decodeMap w = some i) : encode i = w := by
  simp only [decodeMap] at h
  split at h
  case h_1 => exact encode_of_decodeClass0 h
  case h_9 hc => rw [encode_of_decodeClass8 h, encodeXyd_fieldsOf hc]
  case h_16 hc => rw [encode_of_decodeClassF h, encodeXkk_fieldsOf hc]
  case h_6 hc | h_10 hc =>
    obtain ⟨hd, hi⟩ := Option.ite_none_right_eq_some.1 h
    cases hi
    exact (congrArg (encodeXyd _ _ _) hd.symm).trans (encodeXyd_fieldsOf hc)
  case h_14 hc => cases h; exact encodeXyd_fieldsOf hc
  case h_15 | h_17 => cases h
  case h_2 hc | h_3 hc | h_11 hc | h_12 hc => cases h; exact encodeNnn_fieldsOf hc
  all_goals next hc => cases h; exact encodeXkk_fieldsOf hc

/-- Settles O2: each class of the opcode map gives the fields of the word back to the encoder. -/
theorem encodeOfDecode : Obligations.EncodeOfDecode :=
  fun w i h => encode_of_decodeMap ((decodeWord_ok_iff w i).1 h)

/-- Settles O4: the decoder evaluated on the thirteen words, each through its two bytes in memory order. -/
theorem writtenOutWordsDecode : Obligations.WrittenOutWordsDecode := by
  unfold Obligations.WrittenOutWordsDecode
  decide

/-! ### The words the decoder rejects are on R77's list -/

theorem decodeClass0_none {w : Word} (h : decodeClass0 w = none) :
    w.toNat ≠ 0x0000 ∧ w.toNat ≠ 0x00E0 ∧ w.toNat ≠ 0x00EE := by
  simpa [decodeClass0, ite_eq_iff, ← BitVec.toNat_inj] using h

theorem decodeClass8_none {x y : Index} {d : BitVec 4} (h : decodeClass8 x y d.toNat = none) :
    d.toNat = 0x8 ∨ d.toNat = 0x9 ∨ d.toNat = 0xA ∨ d.toNat = 0xB ∨ d.toNat = 0xC ∨ d.toNat = 0xD ∨ d.toNat = 0xF := by
  have hlt := d.isLt
  unfold decodeClass8 at h
  split at h
  case h_10 => simp only [imp_false] at *; omega
  all_goals cases h

theorem decodeClassF_none {x : Index} {kk : Byte} (h : decodeClassF x kk = none) :
    kk.toNat ≠ 0x0A ∧ kk.toNat ≠ 0x1E ∧ kk.toNat ≠ 0x29 ∧ kk.toNat ≠ 0x33 ∧ kk.toNat ≠ 0x55 ∧ kk.toNat ≠ 0x65 := by
  simpa [decodeClassF, ite_eq_iff, ← BitVec.toNat_inj] using h

/-- Class by class of the decoder, as in `encode_of_decodeMap`. -/
theorem listedUnimplemented_of_decodeMap_none {w : Word} (h : decodeMap w = none) : listedUnimplemented w = true := by
  simp only [listedUnimplemented, decide_eq_true_eq, ← fieldsOf_c, ← fieldsOf_d, ← fieldsOf_kk]
  simp only [decodeMap] at h
  split at h
  case h_1 hc => exact .inl ⟨hc, decodeClass0_none h⟩
  case h_6 hc | h_10 hc => simpa [hc, ← BitVec.toNat_inj] using h
  case h_9 hc => simpa [hc] using decodeClass8_none h
  case h_15 hc => simp [hc]
  case h_16 hc => simpa [hc] using decodeClassF_none h
  case h_17 =>
    exfalso
    have hlt := (fieldsOf w).c.isLt
    simp only [imp_false] at *
    omega
  all_goals cases h

/-! ### The rows of the opcode map (R74, R75) -/

/-- Every instruction's row selects its encoding, row by row of the map. -/
theorem row_selects_encode : ∀ i : Instr, i.row.selects (encode i) = true
  | .halt => RowSelects.halt
  | .cls => RowSelects.cls
  | .ret => RowSelects.ret
  | .jpNnn nnn => RowSelects.jpNnn nnn
  | .callNnn nnn => RowSelects.callNnn nnn
  | .seVxKk x kk => RowSelects.seVxKk x kk
  | .sneVxKk x kk => RowSelects.sneVxKk x kk
  | .seVxVy x y => RowSelects.seVxVy x y
  | .ldVxKk x kk => RowSelects.ldVxKk x kk
  | .addVxKk x kk => RowSelects.addVxKk x kk
  | .ldVxVy x y => RowSelects.ldVxVy x y
  | .orVxVy x y => RowSelects.orVxVy x y
  | .andVxVy x y => RowSelects.andVxVy x y
  | .xorVxVy x y => RowSelects.xorVxVy x y
  | .addVxVy x y => RowSelects.addVxVy x y
  | .subVxVy x y => RowSelects.subVxVy x y
  | .shrVx x y => RowSelects.shrVx x y
  | .subnVxVy x y => RowSelects.subnVxVy x y
  | .shlVx x y => RowSelects.shlVx x y
  | .sneVxVy x y => RowSelects.sneVxVy x y
  | .ldINnn nnn => RowSelects.ldINnn nnn
  | .jpV0Nnn nnn => RowSelects.jpV0Nnn nnn
  | .rndVxKk x kk => RowSelects.rndVxKk x kk
  | .drwVxVyD x y d => RowSelects.drwVxVyD x y d
  | .ldVxK x => RowSelects.ldVxK x
  | .addIVx x => RowSelects.addIVx x
  | .ldFVx x => RowSelects.ldFVx x
  | .ldBVx x => RowSelects.ldBVx x
  | .ldMemVx x => RowSelects.ldMemVx x
  | .ldVxMem x => RowSelects.ldVxMem x

theorem row_mem_opcodeRows (i : Instr) : i.row ∈ opcodeRows :=
  List.elem_iff.1 (by cases i <;> rfl)

/-- Two rows that select one word agree on the bits both masks fix, and no two rows of the map do (R75). -/
theorem row_eq_of_selects {w : Word} {q q' : OpcodeRow} (hq : q ∈ opcodeRows) (hq' : q' ∈ opcodeRows)
    (h : q.selects w = true) (h' : q'.selects w = true) : q = q' := by
  have hdisjoint : ∀ q ∈ opcodeRows, ∀ q' ∈ opcodeRows, q.pattern &&& q'.mask = q'.pattern &&& q.mask → q = q' := by
    decide
  apply hdisjoint q hq q' hq'
  rw [← beq_iff_eq.1 h, ← beq_iff_eq.1 h', BitVec.and_assoc, BitVec.and_assoc, BitVec.and_comm q.mask]

theorem row_selects_of_decodeMap {w : Word} {i : Instr} (h : decodeMap w = some i) : i.row.selects w = true := by
  have hsel := row_selects_encode i
  rwa [encode_of_decodeMap h] at hsel

theorem decodeMap_none_of_no_row {w : Word} (h : ∀ q ∈ opcodeRows, q.selects w = false) : decodeMap w = none := by
  cases hi : decodeMap w with
  | none => rfl
  | some i => simpa [row_selects_of_decodeMap hi] using h i.row (row_mem_opcodeRows i)

theorem no_row_of_listedUnimplemented {w : Word} (hw : listedUnimplemented w = true) :
    ∀ q ∈ opcodeRows, q.selects w = false := by
  simp only [listedUnimplemented, decide_eq_true_eq] at hw
  simp only [opcodeRows, opcodeRows0to7, opcodeRows8, opcodeRows9toF, List.cons_append, List.nil_append,
    List.forall_mem_cons, ← Bool.not_eq_true, selects_FFFF, selects_F000, selects_F00F, selects_F0FF,
    ← BitVec.toNat_inj]
  simp only [BitVec.ofNat_eq_ofNat, BitVec.toNat_ofNat, List.not_mem_nil, false_implies, implies_true, and_true]
  and_intros <;> omega

/-! ### A word is on the list, selected by no row, and rejected by the decoder, all at once (R76, R77)

The three close a circle: a listed word is selected by no row, such a word does not decode, and the decoder rejects only
listed words. -/

theorem decodeMap_none_iff_no_row (w : Word) : decodeMap w = none ↔ ∀ q ∈ opcodeRows, q.selects w = false :=
  ⟨fun h => no_row_of_listedUnimplemented (listedUnimplemented_of_decodeMap_none h), decodeMap_none_of_no_row⟩

theorem listedUnimplemented_iff_no_row (w : Word) :
    listedUnimplemented w = true ↔ ∀ q ∈ opcodeRows, q.selects w = false :=
  ⟨no_row_of_listedUnimplemented, fun h => listedUnimplemented_of_decodeMap_none (decodeMap_none_of_no_row h)⟩

/-- Settles O3: a decoded word is its instruction's encoding, which that instruction's row alone selects. -/
theorem decoderAgreesWithOpcodeMap : Obligations.DecoderAgreesWithOpcodeMap := by
  constructor
  · intro w i h
    have hsel := row_selects_of_decodeMap ((decodeWord_ok_iff w i).1 h)
    exact ⟨row_mem_opcodeRows i, hsel, fun q hq hq' => row_eq_of_selects hq (row_mem_opcodeRows i) hq' hsel⟩
  · intro w
    rw [decodeWord_error_iff, decodeMap_none_iff_no_row]

end Sys2Proof

/-! ### Running an unimplemented word (R77; 60_exceptions.md R223, R224) -/

namespace Sys2Proof.Machine

/-- A cycle whose advance is legal and whose word does not decode takes the fault in place of the execute step
(40_cycle.md R102, R103). -/
theorem cycle_unimplemented {s : State} (r : Byte) (hst : s.status = .running) (hadv : s.pc + 2 < 4095)
    (hword : decodeMap (s.wordAt s.pc) = none) :
    cycle r s = .next ((s.inExecute r).raise .unimplementedOpcode).endCycle := by
  rw [cycle_running r hst, runCycle_eq, if_neg (by omega), if_neg (by omega),
    execute_unimplemented _ ((decodeWord_error_iff _).2 hword), onNext_next]

/-- Settles O5: a listed word is selected by no row, so it does not decode, and the cycle raises the fault with the
arguments it was begun with. -/
theorem unimplementedWordsFault : Obligations.UnimplementedWordsFault := by
  refine ⟨listedUnimplemented_iff_no_row, fun r s hst hadv hlisted => ?_⟩
  have hword := decodeMap_none_of_no_row (no_row_of_listedUnimplemented hlisted)
  exact ⟨_, cycle_unimplemented r hst hadv hword, rfl⟩

end Sys2Proof.Machine
end

section
/-! The cycle family (40_cycle.md): the faults of the fetch and the advance, the cycle while waiting for a key, and the
random byte, which of the instructions only `Cxkk` reads. -/

namespace Sys2Proof.Machine

/-! ### The faults before the execute step (40_cycle.md R102, R109) -/

/-- A cycle whose fetch would leave memory faults before there is a word (R109). -/
theorem cycle_fetch_fault {s : State} (r : Byte) (hst : s.status = .running) (hpc : 4095 ≤ s.pc) :
    cycle r s = .next ((s.beginCycle r).raise .memoryOutOfBounds).endCycle := by
  rw [cycle_running r hst, runCycle_eq, if_pos (by omega), onNext_next]

/-- A cycle whose advance is illegal faults with the fetched word, which is not decoded (R102, R225). -/
theorem cycle_advance_fault {s : State} (r : Byte) (hst : s.status = .running) (hpc : s.pc = 4093 ∨ s.pc = 4094) :
    cycle r s = .next (((s.beginCycle r).withWord (s.wordAt s.pc)).raise .illegalJumpTarget).endCycle := by
  rw [cycle_running r hst, runCycle_eq, if_neg (by omega), if_pos (by omega), onNext_next]

/-- Settles O7: both faults are taken with the arguments the cycle has so far, so only the second record lacks the
word. -/
theorem advanceAndFetchFaults : Obligations.AdvanceAndFetchFaults :=
  fun r _ hst => ⟨fun hpc => ⟨_, cycle_advance_fault r hst hpc, rfl⟩, fun hpc => ⟨_, cycle_fetch_fault r hst hpc, rfl⟩⟩

/-- Settles O6: `step` is the cycle with the free random byte, by definition. -/
theorem stepRunsDecodedInstruction : Obligations.StepRunsDecodedInstruction :=
  fun r _ _ hrun => ⟨cycle_aboutToRun r hrun, cycle_aboutToRun _ hrun⟩

/-! ### Waiting for a key (40_cycle.md R104) -/

theorem cycle_waiting {s : State} {y : Index} (h : s.status = .waitingForKey y) (r : Byte) : cycle r s = .next s :=
  cycle_not_running r (by simp [h])

/-- Settles O8: of the transactions that are neither a `key_down` nor a `stop`, a cycle leaves the waiting state as it is
and the others never write the status. -/
theorem waitingCycleDoesNothing : Obligations.WaitingCycleDoesNothing := by
  intro s y h
  have hcycle := cycle_waiting h
  refine ⟨hcycle, hcycle _, fun x t hx hne => ?_⟩
  cases x with
  | keyDown k => exact .inl ⟨k, rfl⟩
  | stop => exact .inr rfl
  | cycle r => cases (hcycle r).symm.trans hx; exact absurd rfl hne
  | readReg _ | snapshot | clearDirty | readStatus => cases hx; exact absurd rfl hne

/-! ### The shared operations neither read nor write the cycle's arguments (log 5) -/

section Operations

variable (s : State) (c : CycleArgs)

theorem setPc_withCyc (t : Nat) : setPc t (s.withCyc c) = (setPc t s).map (·.withCyc c) := by
  unfold setPc
  split <;> rfl

theorem skipIf_withCyc (b : Bool) : skipIf b (s.withCyc c) = (skipIf b s).map (·.withCyc c) := by
  cases b with
  | false => rfl
  | true => exact setPc_withCyc s c _

theorem push_withCyc (v : Nat) : push v (s.withCyc c) = (push v s).map (·.withCyc c) := by
  by_cases hroom : s.SP.val < 16
  · rw [push_room v hroom, push_room (s := s.withCyc c) v hroom]
    rfl
  · rw [push_full v hroom, push_full (s := s.withCyc c) v hroom]
    rfl

theorem pop_withCyc : pop (s.withCyc c) = (pop s).map fun p => (p.1, p.2.withCyc c) := by
  by_cases hz : s.SP.val = 0
  · rw [pop_empty hz, pop_empty (s := s.withCyc c) hz]
    rfl
  · rw [pop_some hz, pop_some (s := s.withCyc c) hz]
    rfl

theorem memRead_withCyc (a n : Nat) : memRead a n (s.withCyc c) = memRead a n s := by
  rw [memRead_eq, memRead_eq, bytesAt_withCyc]

theorem memWrite_withCyc (a : Nat) (bs : List Byte) :
    memWrite a bs (s.withCyc c) = (memWrite a bs s).map (·.withCyc c) := by
  unfold memWrite
  split <;> rfl

/-- Two steps in a row commute with a change of the cycle's arguments if each does; `g` is what the change makes of the
first step's answer. -/
theorem bind_withCyc {α β : Type} {g : α → β} {x : Except Fault α} {x' : Except Fault β} {f : α → Except Fault State}
    {f' : β → Except Fault State} (hx : x' = x.map g) (hf : ∀ a, f' (g a) = (f a).map (·.withCyc c)) :
    (x' >>= f') = (x >>= f).map (·.withCyc c) := by
  subst hx
  cases x with
  | ok a => exact hf a
  | error k => rfl

/-- A read answers no state, so the change leaves its answer. -/
theorem bind_read_withCyc {α : Type} {x x' : Except Fault α} {f f' : α → Except Fault State} (hx : x' = x)
    (hf : ∀ a, f' a = (f a).map (·.withCyc c)) : (x' >>= f') = (x >>= f).map (·.withCyc c) :=
  bind_withCyc c (g := id) (hx.trans (congrFun Except.map_id x).symm) hf

end Operations

/-! ### The random byte in the execute step (40_cycle.md R108; 92_eei_decisions.md D18) -/

section RandomByte

variable {s : State} {c : CycleArgs} (haddr : c.addr = s.cyc.addr) (hword : c.word = s.cyc.word)
include haddr hword

/-- A fault record holds the address and the word of the cycle, not its random byte (60_exceptions.md R224). -/
theorem raise_withCyc (k : Fault) : (s.withCyc c).raise k = (s.raise k).withCyc c := by
  simp only [State.raise, State.faultRecord, State.withCyc_cyc, haddr, hword]
  rfl

theorem attempt_withCyc {body body' : Except Fault State} (h : body' = body.map (·.withCyc c)) :
    attempt (s.withCyc c) body' = onNext (·.withCyc c) (attempt s body) := by
  subst h
  cases body with
  | ok t => rfl
  | error k => exact congrArg _ (raise_withCyc haddr hword k)

/-- Every instruction but `Cxkk` commutes with a change of the cycle's random byte. -/
theorem exec_withCyc {i : Instr} (hi : ∀ x kk, i ≠ .rndVxKk x kk) :
    exec i (s.withCyc c) = onNext (·.withCyc c) (exec i s) := by
  have hattempt {body body' : Except Fault State} := attempt_withCyc haddr hword (body := body) (body' := body')
  cases i with
  | rndVxKk x kk => exact absurd rfl (hi x kk)
  | halt | cls | ldVxK | ldINnn | addIVx => rfl
  | ldVxKk | addVxKk | ldVxVy | orVxVy | andVxVy | xorVxVy => rfl
  | addVxVy | subVxVy | shrVx | subnVxVy | shlVx => rfl
  | jpNnn | jpV0Nnn => exact hattempt (setPc_withCyc s c _)
  | seVxKk | sneVxKk | seVxVy | sneVxVy => exact hattempt (skipIf_withCyc s c _)
  | ret => exact hattempt (bind_withCyc c (pop_withCyc s c) fun p => setPc_withCyc p.2 c p.1)
  | callNnn => exact hattempt (bind_withCyc c (push_withCyc s c _) fun u => setPc_withCyc u c _)
  | ldFVx x =>
    refine hattempt ?_
    rw [State.withCyc_getV]
    split <;> rfl
  | ldBVx x => exact hattempt (memWrite_withCyc s c _ _)
  | ldMemVx => exact hattempt (bind_read_withCyc c (readRegs_withCyc s c 0 _) fun bs => memWrite_withCyc s c _ bs)
  | ldVxMem => exact hattempt (bind_read_withCyc c (memRead_withCyc s c _ _) fun bs => writeRegs_withCyc s c 0 bs)
  | drwVxVyD => exact hattempt (bind_read_withCyc c (memRead_withCyc s c _ _) fun _ => rfl)

end RandomByte

/-- The end of the cycle forgets its arguments, whatever they were. -/
theorem onNext_endCycle_withCyc (c : CycleArgs) (o : Host.Outcome State Fault Refusal) :
    onNext State.endCycle (onNext (·.withCyc c) o) = onNext State.endCycle o := by
  cases o <;> rfl

/-- The execute step of an instruction other than `Cxkk`, in a cycle with another random byte. -/
theorem exec_inExecute_random {i : Instr} (hi : ∀ x kk, i ≠ .rndVxKk x kk) (r r' : Byte) (s : State) :
    onNext State.endCycle (exec i (s.inExecute r')) = onNext State.endCycle (exec i (s.inExecute r)) :=
  calc onNext State.endCycle (exec i (s.inExecute r'))
    _ = onNext State.endCycle (onNext (·.withCyc (s.inExecute r').cyc) (exec i (s.inExecute r))) :=
      congrArg _ (exec_withCyc (s := s.inExecute r) (c := (s.inExecute r').cyc) rfl rfl hi)
    _ = onNext State.endCycle (exec i (s.inExecute r)) := onNext_endCycle_withCyc _ _

/-- Settles O11: a cycle of a running machine ends in one of three faults, whose records do not hold the random byte, or
executes the word's instruction, which is not `Cxkk`. -/
theorem randomByteReachesOnlyRnd : Obligations.RandomByteReachesOnlyRnd := by
  intro r r' s hword
  by_cases hst : s.status = .running
  · have hpc : 4095 ≤ s.pc ∨ (s.pc = 4093 ∨ s.pc = 4094) ∨ s.pc + 2 < 4095 := by omega
    rcases hpc with hfetch | hadv | hlegal
    · rw [cycle_fetch_fault r hst hfetch, cycle_fetch_fault r' hst hfetch]
      rfl
    · rw [cycle_advance_fault r hst hadv, cycle_advance_fault r' hst hadv]
      rfl
    · rcases decodeWord_cases (s.wordAt s.pc) with ⟨i, hi⟩ | hnone
      · have hrun : s.aboutToRun i := ⟨hst, hlegal, hi⟩
        rw [cycle_aboutToRun r hrun, cycle_aboutToRun r' hrun]
        exact exec_inExecute_random (fun x kk h => hword x kk (h ▸ hi)) r' r s
      · have hnone := (decodeWord_error_iff _).1 hnone
        rw [cycle_unimplemented r hst hlegal hnone, cycle_unimplemented r' hst hlegal hnone]
        rfl
  · rw [cycle_not_running r hst, cycle_not_running r' hst]

end Sys2Proof.Machine
end

section
/-! The flow family (41_flow.md): HALT, the jumps and skips, and the call stack, whose occupied slots are read as a
list, so that a call is a `cons` and a return takes the head. -/

namespace Sys2Proof.Machine

/-- Settles O12: HALT is this one update of the status, by definition. -/
theorem haltEndsTheRun : Obligations.HaltEndsTheRun := fun _ => rfl

/-! ### An instruction that ends in the checked write of `pc` (00_scope.md R17; 10_state.md R24)

In both, `u` is the state the instruction has reached, which a fault discards. -/

theorem attempt_setPc_legal {n : Nat} (s u : State) (h : n < 4095) : attempt s (setPc n u) = .next (u.withPc n) := by
  rw [setPc_legal u h, attempt_ok]

theorem faultsWith_attempt_setPc {n : Nat} (s u : State) (h : 4095 ≤ n) :
    FaultsWith s .illegalJumpTarget (attempt s (setPc n u)) := by
  rw [setPc_illegal u h]
  exact faultsWith_attempt_error s _

/-! ### Jumps (R122, R128) -/

theorem exec_jpNnn (nnn : Addr12) (s : State) : exec (.jpNnn nnn) s = attempt s (setPc nnn.toNat s) := rfl

theorem exec_jpV0Nnn (nnn : Addr12) (s : State) :
    exec (.jpV0Nnn nnn) s = attempt s (setPc (nnn.toNat + (s.getV 0).toNat) s) := rfl

/-- A jump to itself undoes the cycle's advance, and the end of the cycle its arguments. -/
theorem endCycle_withPc_inExecute {s : State} (r : Byte) (h : BetweenCycles s) :
    ((s.inExecute r).withPc s.pc).endCycle = s := by
  unfold BetweenCycles at h
  cases s
  cases h
  rfl

theorem cycle_jump_to_self {nnn : Addr12} {s : State} (r : Byte) (hrun : s.aboutToRun (.jpNnn nnn))
    (hself : nnn.toNat = s.pc) (hidle : BetweenCycles s) : cycle r s = .next s := by
  have ⟨_, hadv, _⟩ := hrun
  rw [cycle_aboutToRun r hrun, exec_jpNnn, hself, attempt_setPc_legal _ _ (by omega), onNext_next,
    endCycle_withPc_inExecute r hidle]

/-- Settles O13: a jump is nothing but the checked write of its target. -/
theorem jumpGoesToTarget : Obligations.JumpGoesToTarget :=
  fun nnn s => ⟨encodeNnn_toNat 0x1#4 nnn, attempt_setPc_legal s s, faultsWith_attempt_setPc s s,
    fun hrun hself hidle r => cycle_jump_to_self r hrun hself hidle⟩

/-- Settles O17: the checked write of the untruncated sum. -/
theorem computedJumpAddsV0 : Obligations.ComputedJumpAddsV0 := by
  intro nnn s
  rw [exec_jpV0Nnn]
  exact ⟨attempt_setPc_legal s s, faultsWith_attempt_setPc s s⟩

/-! ### Skips (R124 to R127, R129) -/

/-- An instruction that executes as `skipIf` of a test skips when the test's condition holds. -/
theorem skipsWhen_of_skipIf {i : Instr} {s : State} {test : Bool} {cond : Prop}
    (hexec : exec i s = attempt s (skipIf test s)) (htest : test = true ↔ cond) : SkipsWhen i s cond := by
  unfold SkipsWhen
  rw [hexec, ← htest]
  cases test with
  | false => simp
  | true => exact ⟨fun _ => attempt_setPc_legal s s, fun _ => faultsWith_attempt_setPc s s, fun h => absurd rfl h⟩

/-- Settles O16: each skip is `skipIf` of its own test on bytes. -/
theorem skipsFollowTheirConditions : Obligations.SkipsFollowTheirConditions :=
  fun x y kk _ =>
    ⟨⟨encodeXkk_toNat 0x3#4 x kk, skipsWhen_of_skipIf rfl beq_iff_eq⟩,
      ⟨encodeXkk_toNat 0x4#4 x kk, skipsWhen_of_skipIf rfl bne_iff_ne⟩,
      ⟨encodeXyd_toNat 0x5#4 x y 0x0#4, skipsWhen_of_skipIf rfl beq_iff_eq⟩,
      ⟨encodeXyd_toNat 0x9#4 x y 0x0#4, skipsWhen_of_skipIf rfl bne_iff_ne⟩⟩

/-! ### One call and one return (R121, R123; 10_state.md R30, R31) -/

/-- With room on the stack, a call is the checked write of its target after the push. -/
theorem exec_callNnn_room {s : State} (nnn : Addr12) (room : s.SP.val < 16) :
    exec (.callNnn nnn) s =
      attempt s (setPc nnn.toNat (s.withStack (s.S.set s.SP.val s.pc) ⟨s.SP.val + 1, by omega⟩)) := by
  simp only [exec, execCallNnn, push_room _ room, bind_ok, immediateTarget]

theorem exec_callNnn_full {s : State} (nnn : Addr12) (full : ¬ s.SP.val < 16) :
    exec (.callNnn nnn) s = .next (s.raise .stackOverflow) := by
  simp only [exec, execCallNnn, push_full _ full, bind_error, attempt_error]

/-- With an occupied stack, a return is the checked write of the top slot's value after the pop. -/
theorem exec_ret_occupied {s : State} (occupied : s.SP.val ≠ 0) :
    exec .ret s =
      attempt s (setPc (s.S[s.SP.val - 1]'(by omega)) (s.withStack s.S ⟨s.SP.val - 1, by omega⟩)) := by
  simp only [exec, execRet, pop_some occupied, bind_ok]

theorem exec_ret_empty {s : State} (empty : s.SP.val = 0) : exec .ret s = .next (s.raise .stackUnderflow) := by
  simp only [exec, execRet, pop_empty empty, bind_error, attempt_error]

theorem sameButFlow_withStack_withPc (s : State) (slots : Vector Nat 16) (sp : Fin 17) (n : Nat) :
    SameButFlow s ((s.withStack slots sp).withPc n) :=
  ⟨fun _ => rfl, rfl, fun _ => rfl, ⟨fun _ _ => rfl, rfl⟩, rfl, rfl, rfl, rfl⟩

/-- Settles O14: the push is checked before the jump, so a full stack faults whatever the target is. -/
theorem callPushesAndJumps : Obligations.CallPushesAndJumps := by
  refine fun nnn s => ⟨fun room hlegal => ?_, fun full => ?_, fun room hillegal => ?_⟩
  · refine ⟨_, (exec_callNnn_room nnn room).trans (attempt_setPc_legal s _ hlegal), rfl, rfl, ?_, fun j hj => ?_,
      sameButFlow_withStack_withPc s _ _ _⟩
    · exact Vector.getElem_set_self room
    · exact Vector.getElem_set_ne room j.isLt hj.symm
  · rw [exec_callNnn_full nnn (by omega)]
    exact faultsWith_raise s _
  · rw [exec_callNnn_room nnn room]
    exact faultsWith_attempt_setPc s _ hillegal

/-- Settles O15: the pop is checked before the jump and writes no slot. -/
theorem returnPopsTheStack : Obligations.ReturnPopsTheStack := by
  refine fun s => ⟨fun some_slot target htop => ?_, fun empty => ?_⟩
  · rw [exec_ret_occupied (by omega), htop]
    refine ⟨fun hlegal => ⟨_, attempt_setPc_legal s _ hlegal, rfl, ?_, fun _ => rfl,
      sameButFlow_withStack_withPc s _ _ _⟩, faultsWith_attempt_setPc s _⟩
    exact Nat.sub_add_cancel some_slot
  · rw [exec_ret_empty empty]
    exact faultsWith_raise s _

/-! ### The occupied slots as a list (10_state.md R28, R29) -/

/-- The return addresses on the stack, the top slot's first. -/
def State.returnAddresses (s : State) : List Nat := (s.S.toList.take s.SP.val).reverse

@[simp] theorem returnAddresses_withPc (s : State) (n : Nat) : (s.withPc n).returnAddresses = s.returnAddresses := rfl

@[simp] theorem returnAddresses_length (s : State) : s.returnAddresses.length = s.SP.val := by
  simp [State.returnAddresses, Nat.le_of_lt_succ s.SP.isLt]

theorem returnAddresses_push {s : State} (v : Nat) (room : s.SP.val < 16) :
    (s.withStack (s.S.set s.SP.val v) ⟨s.SP.val + 1, by omega⟩).returnAddresses = v :: s.returnAddresses := by
  simp [State.returnAddresses, List.take_add_one, Vector.toList_set, List.take_set_of_le, room]

theorem returnAddresses_pop {s : State} (occupied : s.SP.val ≠ 0) :
    s.returnAddresses =
      s.S[s.SP.val - 1]'(by omega) :: (s.withStack s.S ⟨s.SP.val - 1, by omega⟩).returnAddresses := by
  have hlt : s.SP.val - 1 < 16 := by omega
  have htake : s.S.toList.take s.SP.val = s.S.toList.take (s.SP.val - 1 + 1) :=
    congrArg (List.take · _) (Nat.sub_one_add_one occupied).symm
  simp [State.returnAddresses, htake, List.take_add_one, hlt]

/-- A call with room and a legal target pushes its `pc`. -/
theorem exec_callNnn_pushes {s : State} {nnn : Addr12} (room : s.SP.val < 16) (hlegal : nnn.toNat < 4095) :
    ∃ t, exec (.callNnn nnn) s = .next t ∧ t.returnAddresses = s.pc :: s.returnAddresses ∧ t.status = s.status := by
  rw [exec_callNnn_room nnn room, attempt_setPc_legal s _ hlegal]
  exact ⟨_, rfl, returnAddresses_push s.pc room, rfl⟩

/-- A return goes to the first of the return addresses, if legal, and takes it off. -/
theorem exec_ret_pops {s : State} {a : Nat} {rest : List Nat} (hstack : s.returnAddresses = a :: rest)
    (hlegal : a < 4095) :
    ∃ t, exec .ret s = .next t ∧ t.pc = a ∧ t.returnAddresses = rest ∧ t.status = s.status := by
  have occupied : s.SP.val ≠ 0 := by
    rw [← returnAddresses_length, hstack]
    exact Nat.succ_ne_zero _
  obtain ⟨rfl, rfl⟩ := List.cons.inj ((returnAddresses_pop occupied).symm.trans hstack)
  rw [exec_ret_occupied occupied, attempt_setPc_legal s _ hlegal]
  exact ⟨_, rfl, rfl, rfl, rfl⟩

/-! ### Sequences of calls and returns (95_test_vectors.md example E3) -/

theorem runCalls_pushes {calls : List (Nat × Addr12)} {s : State} (room : s.SP.val + calls.length ≤ 16)
    (hlegal : ∀ e ∈ calls, e.2.toNat < 4095) :
    ∃ t, runCalls calls s = .next t ∧ t.returnAddresses = (calls.map Prod.fst).reverse ++ s.returnAddresses ∧
      t.status = s.status := by
  induction calls generalizing s with
  | nil => exact ⟨s, rfl, rfl, rfl⟩
  | cons call rest ih =>
    obtain ⟨ra, nnn⟩ := call
    obtain ⟨hnnn, hrest⟩ := List.forall_mem_cons.1 hlegal
    rw [List.length_cons] at room
    obtain ⟨t, hcall, hstack, hstatus⟩ := exec_callNnn_pushes (s := s.withPc ra) (show s.SP.val < 16 by omega) hnnn
    have hSP : t.SP.val = s.SP.val + 1 := by simp [← returnAddresses_length, hstack]
    obtain ⟨u, hcalls, hstack', hstatus'⟩ := ih (s := t) (by omega) hrest
    refine ⟨u, ?_, ?_, hstatus'.trans hstatus⟩
    · simp only [runCalls, hcall, hcalls]
    · simp [hstack', hstack]

theorem runReturns_pops {targets rest : List Nat} {s : State} (hstack : s.returnAddresses = targets ++ rest)
    (hlegal : ∀ a ∈ targets, a < 4095) :
    returnTargets targets.length s = targets ∧
      ∃ t, runReturns targets.length s = .next t ∧ t.returnAddresses = rest ∧ t.status = s.status := by
  induction targets generalizing s with
  | nil => exact ⟨rfl, s, rfl, hstack, rfl⟩
  | cons a targets ih =>
    obtain ⟨ha, htargets⟩ := List.forall_mem_cons.1 hlegal
    obtain ⟨t, hret, hpc, hstack', hstatus⟩ := exec_ret_pops hstack ha
    obtain ⟨hreturned, u, hreturns, hrest, hstatus'⟩ := ih hstack' htargets
    refine ⟨?_, u, ?_, hrest, hstatus'.trans hstatus⟩
    · simp only [List.length_cons, returnTargets, hret, hpc, hreturned]
    · simp only [List.length_cons, runReturns, hret, hreturns]

/-- Settles O18: the calls put their return addresses before those on the stack, last call first, and the returns take
just these off again; the stack pointer is the length of the list. -/
theorem callsThenReturnsBalance : Obligations.CallsThenReturnsBalance := by
  intro calls s room hlegal
  obtain ⟨t, hcalls, hstack, hstatus⟩ := runCalls_pushes room fun e he => (hlegal e he).2
  have htargets : ∀ a ∈ (calls.map Prod.fst).reverse, a < 4095 := by
    simpa using fun a n h => (hlegal (a, n) h).1
  obtain ⟨hreturned, u, hreturns, hrest, hstatus'⟩ := runReturns_pops hstack htargets
  rw [List.length_reverse, List.length_map] at hreturned hreturns
  have hSP : t.SP.val = s.SP.val + calls.length := by
    rw [← returnAddresses_length t, hstack]
    simp [Nat.add_comm]
  have hSP' : u.SP = s.SP := by
    rw [Fin.ext_iff, ← returnAddresses_length u, hrest, returnAddresses_length]
  exact ⟨t, hcalls, hSP, hstatus, hreturned, u, hreturns, hSP', hstatus'.trans hstatus⟩

end Sys2Proof.Machine
end

section
/-! The arithmetic and logic family (42_alu.md): an instruction writes a byte to `V[x]`, or a byte to `V[x]` and then a
flag to `VF`; what is left of each is a fact about bytes as numbers. -/

namespace Sys2Proof.Machine

/-! ### The two shapes of a register write (R147) -/

theorem sameButRegisters_setV (s : State) (x : Index) (b : Byte) : SameButRegisters s (s.setV x b) :=
  ⟨rfl, rfl, rfl, rfl, fun _ => rfl, rfl, rfl, rfl, rfl, rfl, rfl⟩

theorem sameButRegisters_writeWithFlag (s : State) (x : Index) (r : Byte) (f : Bool) :
    SameButRegisters s (writeWithFlag x r f s) :=
  sameButRegisters_setV (s.setV x r) VF (flagByte f)

theorem writesRegisters_of_setV {i : Instr} {s : State} {x : Index} {b b' : Byte}
    (hexec : exec i s = .next (s.setV x b)) (hb : b = b') :
    WritesRegisters i s fun j => if j = x then b' else s.getV j := by
  subst hb
  exact ⟨_, hexec, fun j => s.getV_setV x j b, sameButRegisters_setV s x b⟩

/-- The flag is written last, so it stays where `x = 15`. -/
theorem writesRegisters_of_writeWithFlag {i : Instr} {s : State} {x : Index} {r r' b : Byte} {f : Bool}
    (hexec : exec i s = .next (writeWithFlag x r f s)) (hr : r = r') (hf : flagByte f = b) :
    WritesRegisters i s fun j => if j = 15 then b else if j = x then r' else s.getV j := by
  subst hr hf
  exact ⟨_, hexec, fun j => getV_writeWithFlag x j r f s, sameButRegisters_writeWithFlag s x r f⟩

/-! ### Bytes as numbers -/

theorem byte_add_eq (a b : Byte) : a + b = BitVec.ofNat 8 ((a.toNat + b.toNat) % 256) :=
  BitVec.eq_of_toNat_eq (by simp)

theorem byte_sub_eq (a b : Byte) : a - b = BitVec.ofNat 8 ((a.toNat + 256 - b.toNat) % 256) := by
  apply BitVec.eq_of_toNat_eq
  have hb := b.isLt
  rw [BitVec.toNat_sub, BitVec.toNat_ofNat]
  omega

theorem byte_or_eq (a b : Byte) : a ||| b = BitVec.ofNat 8 (a.toNat ||| b.toNat) := by
  rw [← BitVec.toNat_or, BitVec.ofNat_toNat, BitVec.setWidth_eq]

theorem byte_and_eq (a b : Byte) : a &&& b = BitVec.ofNat 8 (a.toNat &&& b.toNat) := by
  rw [← BitVec.toNat_and, BitVec.ofNat_toNat, BitVec.setWidth_eq]

theorem byte_xor_eq (a b : Byte) : a ^^^ b = BitVec.ofNat 8 (a.toNat ^^^ b.toNat) := by
  rw [← BitVec.toNat_xor, BitVec.ofNat_toNat, BitVec.setWidth_eq]

theorem byte_shiftRight_one_eq (a : Byte) : a >>> 1 = BitVec.ofNat 8 (a.toNat / 2) := by
  apply BitVec.eq_of_toNat_eq
  have ha := a.isLt
  rw [BitVec.toNat_ushiftRight, Nat.shiftRight_eq_div_pow, BitVec.toNat_ofNat]
  omega

theorem byte_shiftLeft_one_eq (a : Byte) : a <<< 1 = BitVec.ofNat 8 (a.toNat * 2 % 256) := by
  apply BitVec.eq_of_toNat_eq
  rw [BitVec.toNat_shiftLeft, Nat.shiftLeft_eq, BitVec.toNat_ofNat]
  omega

/-! ### Flags as numbers (10_state.md R38) -/

theorem flagByte_decide (p : Prop) [Decidable p] : flagByte (decide p) = if p then 1#8 else 0#8 := by
  simp only [flagByte, decide_eq_true_eq]

/-- A bit of a number, as the flag byte it is shifted out to. -/
theorem flagByte_testBit (n k : Nat) : flagByte (n.testBit k) = BitVec.ofNat 8 (n / 2 ^ k % 2) := by
  rw [Nat.testBit_eq_decide_div_mod_eq, flagByte_decide]
  rcases Nat.mod_two_eq_zero_or_one (n / 2 ^ k) with h | h <;> simp [h]

theorem flagByte_lowBit (a : Byte) : flagByte (lowBit a) = BitVec.ofNat 8 (a.toNat % 2) := by
  rw [lowBit, ← BitVec.testBit_toNat, flagByte_testBit, Nat.pow_zero, Nat.div_one]

theorem flagByte_highBit (a : Byte) : flagByte (highBit a) = BitVec.ofNat 8 (a.toNat / 128) := by
  have hbit : a.toNat / 2 ^ 7 < 2 := by
    have ha := a.isLt
    omega
  rw [highBit, ← BitVec.testBit_toNat, flagByte_testBit, Nat.mod_eq_of_lt hbit]
  rfl

/-! ### Loads, addition of an immediate, logic: one byte to `V[x]` (R140 to R145) -/

theorem encodeXyd_class8_toNat (x y : Index) (d : BitVec 4) :
    (encodeXyd 0x8#4 x y d).toNat = 0x8000 + d.toNat + x.val * 256 + y.val * 16 := by
  rw [encodeXyd_toNat, BitVec.toNat_ofNat]
  omega

/-- Settles O19: both loads are one register write. -/
theorem loadsWriteVx : Obligations.LoadsWriteVx :=
  fun x y kk _ =>
    ⟨⟨encodeXkk_toNat 0x6#4 x kk, writesRegisters_of_setV rfl rfl⟩,
      ⟨encodeXyd_class8_toNat x y 0x0#4, writesRegisters_of_setV rfl rfl⟩⟩

/-- Settles O20: the sum of bytes is the sum of numbers modulo 256, and `V[x]` alone is written. -/
theorem addImmediateWraps : Obligations.AddImmediateWraps :=
  fun x kk _ => ⟨encodeXkk_toNat 0x7#4 x kk, writesRegisters_of_setV rfl (byte_add_eq _ _)⟩

/-- Settles O21: each operation on bytes is the same operation on numbers, and `V[x]` alone is written. -/
theorem logicIsBitwise : Obligations.LogicIsBitwise :=
  fun x y _ =>
    ⟨⟨encodeXyd_class8_toNat x y 0x1#4, writesRegisters_of_setV rfl (byte_or_eq _ _)⟩,
      ⟨encodeXyd_class8_toNat x y 0x2#4, writesRegisters_of_setV rfl (byte_and_eq _ _)⟩,
      ⟨encodeXyd_class8_toNat x y 0x3#4, writesRegisters_of_setV rfl (byte_xor_eq _ _)⟩⟩

/-! ### Arithmetic and shifts: a result and then its flag (R146 to R151) -/

/-- Settles O22: the carry is decided by the sum of the operands as numbers. -/
theorem addSetsCarry : Obligations.AddSetsCarry := by
  rintro x y s _ _ rfl rfl
  exact writesRegisters_of_writeWithFlag rfl (byte_add_eq _ _) (flagByte_decide _)

/-- Settles O23: the borrow is decided by comparing the operands as numbers; SUBN is SUB with the operands exchanged. -/
theorem subtractionsSetBorrow : Obligations.SubtractionsSetBorrow := by
  rintro x y s _ _ rfl rfl
  exact ⟨writesRegisters_of_writeWithFlag rfl (byte_sub_eq _ _) (flagByte_decide _),
    writesRegisters_of_writeWithFlag rfl (byte_sub_eq _ _) (flagByte_decide _)⟩

/-- Settles O24: the flag is bit 0 or bit 7 of `V[x]` before the shift, and `y` is not read. -/
theorem shiftsMoveOneBitOut : Obligations.ShiftsMoveOneBitOut := by
  rintro x y s _ rfl
  exact ⟨writesRegisters_of_writeWithFlag rfl (byte_shiftRight_one_eq _) (flagByte_lowBit _),
    writesRegisters_of_writeWithFlag rfl (byte_shiftLeft_one_eq _) (flagByte_highBit _)⟩

/-! ### The random byte (R152) -/

theorem exec_rndVxKk (x : Index) (kk : Byte) (s : State) :
    exec (.rndVxKk x kk) s = .next ((s.setV x (s.cyc.random &&& kk)).withDraws (s.draws + 1)) := rfl

/-- Settles O25: the instruction masks the random byte among the cycle's arguments, which is the `r` the cycle was
given. -/
theorem rndMasksTheRandomByte : Obligations.RndMasksTheRandomByte := by
  refine fun x kk s => ⟨?_, fun r hrun => ?_⟩
  · exact ⟨_, exec_rndVxKk x kk s, fun j => s.getV_setV x j _, sameButRegisters_setV s x _⟩
  · have ⟨hst, _⟩ := hrun
    have hcycle := cycle_aboutToRun r hrun
    rw [exec_rndVxKk, onNext_next] at hcycle
    exact ⟨_, hcycle, hst, rfl, fun j => (s.inExecute r).getV_setV x j (r &&& kk)⟩

end Sys2Proof.Machine
end

section
/-! The memory operations family (43_memory_ops.md): the address register, the font address, the decimal digits, and the
block transfers, each of which is one checked access at `I` (20_memory.md R52). -/

namespace Sys2Proof.Machine

/-! ### The address register (R160, R161) -/

theorem addressImmediate_eq (nnn : Addr12) : addressImmediate nnn = BitVec.ofNat 16 nnn.toNat :=
  (BitVec.ofNat_toNat 16 nnn).symm

theorem addressSum_eq (x : Index) (s : State) :
    addressSum x s = BitVec.ofNat 16 ((s.I.toNat + (s.getV x).toNat) % 65536) := by
  apply BitVec.eq_of_toNat_eq
  simp [addressSum]

/-- Settles O26: `Annn` is the one write of the extended operand to `I`. -/
theorem loadAddressRegister : Obligations.LoadAddressRegister :=
  fun nnn _ => ⟨encodeNnn_toNat 0xA#4 nnn, by rw [← addressImmediate_eq]; rfl⟩

/-- Settles O27: `Fx1E` is the one write of the sum to `I`, and a sum of words is the sum of numbers modulo 65536. -/
theorem addToAddressRegisterWraps : Obligations.AddToAddressRegisterWraps :=
  fun x s => by rw [← addressSum_eq]; rfl

/-! ### The font address (R162; 92_eei_decisions.md D32) -/

theorem exec_ldFVx_representable {x : Index} {s : State} (h : (s.getV x).toNat ≤ 15) :
    exec (.ldFVx x) s = .next (s.withI (glyphAddress s.params (s.getV x))) := by
  simp only [exec, execLdFVx, if_neg (Nat.not_lt.2 h), attempt_ok]

theorem exec_ldFVx_unrepresentable {x : Index} {s : State} (h : 15 < (s.getV x).toNat) :
    exec (.ldFVx x) s = .next (s.raise .unrepresentableCharacter) := by
  simp only [exec, execLdFVx, if_pos h, attempt_error]

/-- The font of legal parameters lies in the reserved area, so no glyph's address is truncated. -/
theorem glyphAddress_toNat {p : Params} {v : Byte} (hp : p.wellFormed = true) (hv : v.toNat ≤ 15) :
    (glyphAddress p v).toNat = p.fontBase + 5 * v.toNat := by
  obtain ⟨-, -, hfont⟩ := (params_wellFormed_iff p).1 hp
  rw [glyphAddress, BitVec.toNat_ofNat, Nat.mod_eq_of_lt (by omega)]

/-- Settles O28: the whole `V[x]` is tested, and up to 15 it names a glyph, whose address goes to `I`. -/
theorem fontAddressOrFault : Obligations.FontAddressOrFault := by
  refine fun x s => ⟨fun h => ⟨exec_ldFVx_representable h, fun hp => glyphAddress_toNat hp h⟩, fun h => ?_⟩
  rw [exec_ldFVx_unrepresentable h]
  exact faultsWith_raise s _

/-! ### A checked access, and what a store leaves (00_scope.md R16; 20_memory.md R52) -/

theorem memRead_out {a n : Nat} (s : State) (h : 4096 < a + n) : memRead a n s = .error .memoryOutOfBounds := by
  rw [memRead_eq, if_neg (Nat.not_le.2 h)]

section Store

variable {s : State} {a : Nat} {bs : List Byte}

theorem attempt_memWrite_fits (hfit : a + bs.length ≤ 4096) :
    attempt s (memWrite a bs s) = .next (s.withMem (s.mem.writeList s.params a bs)) := by
  rw [memWrite_eq, if_pos hfit, attempt_ok]

theorem attempt_memWrite_out (hout : 4096 < a + bs.length) :
    attempt s (memWrite a bs s) = .next (s.raise .memoryOutOfBounds) := by
  rw [memWrite_eq, if_neg (Nat.not_le.2 hout), attempt_error]

theorem byteAt_stored {k : Nat} (hm : MemoryCanonical s) (hfit : a + bs.length ≤ 4096) (hk : k < bs.length) :
    (s.withMem (s.mem.writeList s.params a bs)).byteAt (a + k) = bs.getD k 0#8 := by
  rw [byteAt_withMem_writeList _ hm hfit, if_pos (by omega), Nat.add_sub_cancel_left]

theorem byteAt_not_stored {a' : Nat} (hm : MemoryCanonical s) (hfit : a + bs.length ≤ 4096)
    (ha : a' < a ∨ a + bs.length ≤ a') :
    (s.withMem (s.mem.writeList s.params a bs)).byteAt a' = s.byteAt a' := by
  rw [byteAt_withMem_writeList _ hm hfit, if_neg (by omega)]

end Store

theorem sameButMemory_withMem (s : State) (m : Memory) : SameButMemory s (s.withMem m) :=
  ⟨fun _ => rfl, rfl, rfl, ⟨fun _ => rfl, rfl⟩, ⟨fun _ _ => rfl, rfl⟩, rfl, rfl, rfl, rfl⟩

/-! ### The decimal digits of a byte (R163, R164) -/

theorem bcdDigits_map_toNat (v : Byte) :
    (bcdDigits v).map BitVec.toNat = [v.toNat / 100, v.toNat / 10 % 10, v.toNat % 10] := by
  have hv := v.isLt
  simp only [bcdDigits, List.map_cons, List.map_nil, BitVec.toNat_ofNat, List.cons.injEq, and_true]
  omega

theorem byteAt_bcdDigits_toNat {s : State} {a k : Nat} {v : Byte} (hm : MemoryCanonical s) (hfit : a + 3 ≤ 4096)
    (hk : k < 3) :
    ((s.withMem (s.mem.writeList s.params a (bcdDigits v))).byteAt (a + k)).toNat =
      [v.toNat / 100, v.toNat / 10 % 10, v.toNat % 10].getD k 0 := by
  rw [byteAt_stored hm hfit hk, ← bcdDigits_map_toNat]
  exact (List.getD_map _ 0#8 BitVec.toNat).symm

theorem exec_ldBVx (x : Index) (s : State) :
    exec (.ldBVx x) s = attempt s (memWrite (dataBase s) (bcdDigits (s.getV x)) s) := rfl

/-- Settles O29: the three bytes at `I` read as the digits in order, and a byte outside them is not written. -/
theorem bcdStoresThreeDigits : Obligations.BcdStoresThreeDigits := by
  refine fun x s => ⟨fun hm hfit => ?_, fun hout => ?_⟩
  · have hdigit k (hk : k < 3) := byteAt_bcdDigits_toNat (v := s.getV x) hm hfit hk
    exact ⟨_, attempt_memWrite_fits hfit, hdigit 0 (by decide), hdigit 1 (by decide), hdigit 2 (by decide),
      fun a ha => byteAt_not_stored hm hfit ha, sameButMemory_withMem s _⟩
  · rw [exec_ldBVx, attempt_memWrite_out hout]
    exact faultsWith_raise s _

/-! ### Block transfers (R166, R167) -/

/-- Reading `V[0]` to `V[x]` never faults, so the store's only fault is that of its access. -/
theorem exec_ldMemVx_out {x : Index} {s : State} (hout : 4096 < dataBase s + (x.val + 1)) :
    exec (.ldMemVx x) s = .next (s.raise .memoryOutOfBounds) := by
  obtain ⟨bs, hread, hlen, -⟩ := readRegs_ok s (k := 0) (n := x.val + 1) (by omega)
  simp only [exec, execLdMemVx, hread, bind_ok]
  exact attempt_memWrite_out (by rwa [hlen])

/-- LD Vx, [I] inside memory changes `V` alone, and of it `V[0]` to `V[x]`. -/
theorem exec_ldVxMem {x : Index} {s : State} (hfit : dataBase s + (x.val + 1) ≤ 4096) :
    ∃ V : Vector Byte 16, exec (.ldVxMem x) s = .next { s with V := V } ∧
      ∀ j : Index, V[j.val] = if j ≤ x then s.byteAt (dataBase s + j.val) else s.getV j := by
  obtain ⟨V, hwrite, hV⟩ := writeRegs_ok (k := 0) (bs := s.bytesAt (dataBase s) (x.val + 1)) s
    (by rw [bytesAt_length]; omega)
  refine ⟨V, by simp only [exec, execLdVxMem, memRead_eq, if_pos hfit, bind_ok, hwrite, attempt_ok], fun j => ?_⟩
  rw [hV j, bytesAt_length]
  by_cases hj : j ≤ x
  · have hlt : j.val < x.val + 1 := Nat.lt_succ_of_le hj
    rw [if_pos hj, if_pos (by omega)]
    exact bytesAt_getD s _ _ _ hlt
  · rw [if_neg hj, if_neg (by rw [Fin.le_def] at hj; omega)]

theorem exec_ldVxMem_out {x : Index} {s : State} (hout : 4096 < dataBase s + (x.val + 1)) :
    exec (.ldVxMem x) s = .next (s.raise .memoryOutOfBounds) := by
  simp only [exec, execLdVxMem, memRead_out s hout, bind_error, attempt_error]

/-- Settles O30: a store that fits is `exec_ldMemVx`, which writes memory alone. -/
theorem blockStoreWritesRegisters : Obligations.BlockStoreWritesRegisters := by
  refine fun x s => ⟨fun hm hfit => ?_, fun hout => ?_⟩
  · obtain ⟨m, hexec, hstored, hrest⟩ := exec_ldMemVx hm hfit
    exact ⟨s.withMem m, hexec, hstored, hrest, sameButMemory_withMem s m⟩
  · rw [exec_ldMemVx_out hout]
    exact faultsWith_raise s _

/-- Settles O31: a load that fits is `exec_ldVxMem`, which writes registers alone. -/
theorem blockLoadReadsRegisters : Obligations.BlockLoadReadsRegisters := by
  refine fun x s => ⟨fun hfit => ?_, fun hout => ?_⟩
  · obtain ⟨V, hexec, hV⟩ := exec_ldVxMem hfit
    exact ⟨_, hexec, hV, rfl, rfl, rfl, rfl, fun _ => rfl, rfl, rfl, rfl, rfl, rfl, rfl⟩
  · rw [exec_ldVxMem_out hout]
    exact faultsWith_raise s _

/-- A block store that does not fault has its whole access inside memory. -/
theorem dataBase_fits_of_ldMemVx {x : Index} {s t : State} (hstore : exec (.ldMemVx x) s = .next t)
    (ht : t.isFaulted = false) : dataBase s + (x.val + 1) ≤ 4096 := by
  by_contra hout
  rw [exec_ldMemVx_out (Nat.not_le.1 hout)] at hstore
  cases hstore
  simp at ht

/-- Settles O32: the store leaves `I`, so the load reads the bytes it wrote, an access that fits as the store's did. -/
theorem blockStoreThenLoadRestores : Obligations.BlockStoreThenLoadRestores := by
  intro x s t V hm hstore ht
  have hfit := dataBase_fits_of_ldMemVx hstore ht
  obtain ⟨m, hexec, hstored, -⟩ := exec_ldMemVx hm hfit
  cases hexec.symm.trans hstore
  obtain ⟨W, hload, hW⟩ := exec_ldVxMem (s := { s.withMem m with V := V }) hfit
  refine ⟨_, hload, fun j => (hW j).trans ?_⟩
  by_cases hj : j ≤ x
  · rw [if_pos hj, if_pos hj]
    exact hstored j hj
  · rw [if_neg hj, if_neg hj]
    rfl

end Sys2Proof.Machine
end

section
/-! The display family (44_display.md): clearing, drawing a sprite once and twice, and the instructions and transactions
that write the display and its dirty flag. -/

namespace Sys2Proof.Machine

/-! ### Clearing (R180) -/

theorem exec_cls (s : State) : exec .cls s = .next ((s.withD allOff).withDirty true) := rfl

/-- Settles O34: the cleared display is off cell by cell, and the two updates leave the other fields. -/
theorem clearTurnsEveryCellOff : Obligations.ClearTurnsEveryCellOff := fun s =>
  ⟨rfl, _, exec_cls s, cellAt_allOff, rfl, fun _ => rfl, rfl, rfl, ⟨fun _ => rfl, rfl⟩, fun _ => rfl, rfl, rfl, rfl, rfl⟩

/-! ### Drawing once (R181 to R185) -/

/-- The state a draw leaves: the blitter's display, its collision in `VF`, the display marked dirty (R182, R185). -/
def State.withBlit (s : State) (b : Blit) : State :=
  ((s.setV VF (flagByte b.collided)).withD b.display).withDirty true

theorem getV_withBlit_VF (s : State) (b : Blit) : (s.withBlit b).getV 15 = flagByte b.collided :=
  s.getV_setV_same VF _

theorem getV_withBlit_ne {j : Index} (s : State) (b : Blit) (h : j ≠ 15) : (s.withBlit b).getV j = s.getV j :=
  s.getV_setV_ne _ h

section Draw

variable {x y d : Index} {s : State} {x0 y0 : Nat}

/-- A sprite inside memory is drawn over the cells it covers, from a fresh collision flag. -/
theorem exec_drwVxVyD (hx : spriteColumn x s = x0) (hy : spriteRow y s = y0) (hfit : dataBase s + d.val ≤ 4096) :
    ∃ b, exec (.drwVxVyD x y d) s = .next (s.withBlit b) ∧
      Toggles (SpriteCovers s x0 y0 d.val) { display := s.D, collided := false } b := by
  subst hx hy
  refine ⟨_, ?_, toggles_congr (rowsCover_bytesAt s _ _ d.val) (blitRows_toggles _ _ 0 _ _)⟩
  simp only [exec, execDrwVxVyD, memRead_eq, if_pos hfit, bind_ok, attempt_ok]
  rfl

theorem exec_drwVxVyD_out (hout : 4096 < dataBase s + d.val) :
    exec (.drwVxVyD x y d) s = .next (s.raise .memoryOutOfBounds) := by
  simp only [exec, execDrwVxVyD, memRead_out s hout, bind_error, attempt_error]

/-- A draw that does not fault had its sprite inside memory. -/
theorem exec_drwVxVyD_unfaulted {t : State} (hx : spriteColumn x s = x0) (hy : spriteRow y s = y0)
    (h : exec (.drwVxVyD x y d) s = .next t) (ht : t.isFaulted = false) :
    ∃ b, t = s.withBlit b ∧ Toggles (SpriteCovers s x0 y0 d.val) { display := s.D, collided := false } b := by
  by_cases hfit : dataBase s + d.val ≤ 4096
  · obtain ⟨b, hexec, htog⟩ := exec_drwVxVyD hx hy hfit
    cases hexec.symm.trans h
    exact ⟨b, rfl, htog⟩
  · rw [exec_drwVxVyD_out (Nat.not_le.1 hfit)] at h
    cases h
    simp at ht

end Draw

/-- Settles O35: a draw that fits toggles what `Toggles` says, and `VF` is the flag byte of its collision. -/
theorem drawTogglesCoveredCells : Obligations.DrawTogglesCoveredCells := by
  refine fun x y d s x0 y0 hx hy => ⟨fun hfit => ?_, fun hout => ?_⟩
  · obtain ⟨b, hexec, htog⟩ := exec_drwVxVyD hx hy hfit
    refine ⟨_, hexec, htog.on, htog.off, fun hlit => ?_, fun hunlit => ?_, fun j hj => getV_withBlit_ne s b hj, rfl, rfl,
      rfl, ⟨fun _ => rfl, rfl⟩, fun _ => rfl, rfl, rfl, rfl, rfl⟩
    · rw [getV_withBlit_VF, htog.hit.2 (.inr hlit)]
      rfl
    · have hmiss : b.collided = false := Bool.eq_false_iff.2 fun hhit => by
        obtain ⟨r, q, hcov, hlit⟩ := (htog.hit.1 hhit).resolve_left Bool.false_ne_true
        exact absurd hlit (Bool.eq_false_iff.1 (hunlit r q hcov))
      rw [getV_withBlit_VF, hmiss]
      rfl
  · rw [exec_drwVxVyD_out hout]
    exact faultsWith_raise s _

/-! ### Drawing twice (R187) -/

section Twice

variable {covers : Fin 32 → Fin 64 → Prop} {b b' b'' : Blit} (h : Toggles covers b b')
  (h' : Toggles covers { display := b'.display, collided := false } b'')
include h h'

/-- Two blits over the same cells restore them all. -/
theorem cellAt_toggles_twice (r : Fin 32) (q : Fin 64) : cellAt b''.display r q = cellAt b.display r q := by
  by_cases hc : covers r q
  · rw [h'.on r q hc, h.on r q hc, Bool.not_not]
  · rw [h'.off r q hc, h.off r q hc]

/-- The second of two blits over the same cells collides on those that the first turned on. -/
theorem collided_toggles_twice : b''.collided = true ↔ ∃ r q, covers r q ∧ cellAt b.display r q = false := by
  have hlit r q (hc : covers r q) : cellAt b'.display r q = true ↔ cellAt b.display r q = false := by
    rw [h.on r q hc, Bool.not_eq_true']
  have hiff r q := and_congr_right (hlit r q)
  simpa [hiff] using h'.hit

end Twice

/-- Settles O36: the first draw leaves `I` and memory, so the second toggles the same cells. -/
theorem doubleDrawRestores : Obligations.DoubleDrawRestores := by
  intro x y x' y' d s t u x0 y0 hx hy h ht hx' hy' h' hu
  obtain ⟨b, rfl, htog⟩ := exec_drwVxVyD_unfaulted hx hy h ht
  obtain ⟨b', rfl, htog'⟩ := exec_drwVxVyD_unfaulted hx' hy' h' hu
  have htog' : Toggles (SpriteCovers s x0 y0 d.val) { display := b.display, collided := false } b' := htog'
  have hVF : ((s.withBlit b).withBlit b').getV 15 = 1#8 ↔
      ∃ r q, SpriteCovers s x0 y0 d.val r q ∧ cellAt s.D r q = false := by
    rw [getV_withBlit_VF, flagByte_eq_one]
    exact collided_toggles_twice htog htog'
  refine ⟨cellAt_toggles_twice htog htog', hVF, fun hoff => ?_⟩
  rw [hVF]
  exact exists₂_congr fun r q => and_iff_left_of_imp (hoff r q)

/-! ### What writes the display and its dirty flag (R185, R186; 10_state.md R33) -/

/-- The two instructions that write the display. -/
def writesDisplay (i : Instr) : Prop := i = .cls ∨ ∃ x y d, i = .drwVxVyD x y d

/-- Pseudocode whose results all keep the display keeps it, since a fault does too. -/
theorem sameDisplay_of_attempt {s t : State} {body : Except Fault State} (h : attempt s body = .next t)
    (hbody : ∀ u, body = .ok u → SameDisplay s u) : SameDisplay s t := by
  rcases attempt_cases h with hok | ⟨k, -, rfl⟩
  · exact hbody t hok
  · exact ⟨fun _ _ => rfl, rfl⟩

/-- An instruction keeps the display and its dirty flag, faulted or not, or is one of the two and leaves it dirty. -/
theorem exec_display_cases {i : Instr} {s t : State} (h : exec i s = .next t) :
    SameDisplay s t ∨ writesDisplay i ∧ t.dirty = true := by
  cases i with
  | cls =>
    cases h
    exact .inr ⟨.inl rfl, rfl⟩
  | drwVxVyD x y d =>
    by_cases hfit : dataBase s + d.val ≤ 4096
    · obtain ⟨b, hexec, -⟩ := exec_drwVxVyD (x := x) (y := y) rfl rfl hfit
      cases hexec.symm.trans h
      exact .inr ⟨.inr ⟨x, y, d, rfl⟩, rfl⟩
    · rw [exec_drwVxVyD_out (Nat.not_le.1 hfit)] at h
      cases h
      exact .inl ⟨fun _ _ => rfl, rfl⟩
  | ret =>
    refine .inl (sameDisplay_of_attempt h fun u hu => ?_)
    obtain ⟨⟨v, w⟩, hpop, hset⟩ := bind_eq_ok.1 hu
    obtain ⟨sp, rfl⟩ := pop_eq_ok hpop
    obtain ⟨-, rfl⟩ := setPc_eq_ok.1 hset
    exact ⟨fun _ _ => rfl, rfl⟩
  | callNnn nnn =>
    refine .inl (sameDisplay_of_attempt h fun u hu => ?_)
    obtain ⟨w, hpush, hset⟩ := bind_eq_ok.1 hu
    obtain ⟨slots, sp, rfl⟩ := push_eq_ok hpush
    obtain ⟨-, rfl⟩ := setPc_eq_ok.1 hset
    exact ⟨fun _ _ => rfl, rfl⟩
  | jpNnn nnn | jpV0Nnn nnn =>
    refine .inl (sameDisplay_of_attempt h fun u hu => ?_)
    obtain ⟨-, rfl⟩ := setPc_eq_ok.1 hu
    exact ⟨fun _ _ => rfl, rfl⟩
  | seVxKk x kk | sneVxKk x kk | seVxVy x y | sneVxVy x y =>
    refine .inl (sameDisplay_of_attempt h fun u hu => ?_)
    obtain ⟨n, rfl⟩ := skipIf_eq_ok hu
    exact ⟨fun _ _ => rfl, rfl⟩
  | ldFVx x =>
    refine .inl (sameDisplay_of_attempt h fun u hu => ?_)
    split at hu <;> cases hu
    exact ⟨fun _ _ => rfl, rfl⟩
  | ldBVx x =>
    refine .inl (sameDisplay_of_attempt h fun u hu => ?_)
    obtain ⟨m, rfl⟩ := memWrite_eq_ok hu
    exact ⟨fun _ _ => rfl, rfl⟩
  | ldMemVx x =>
    refine .inl (sameDisplay_of_attempt h fun u hu => ?_)
    obtain ⟨bs, -, hwrite⟩ := bind_eq_ok.1 hu
    obtain ⟨m, rfl⟩ := memWrite_eq_ok hwrite
    exact ⟨fun _ _ => rfl, rfl⟩
  | ldVxMem x =>
    by_cases hfit : dataBase s + (x.val + 1) ≤ 4096
    · obtain ⟨V, hload, -⟩ := exec_ldVxMem hfit
      cases hload.symm.trans h
      exact .inl ⟨fun _ _ => rfl, rfl⟩
    · rw [exec_ldVxMem_out (Nat.not_le.1 hfit)] at h
      cases h
      exact .inl ⟨fun _ _ => rfl, rfl⟩
  | halt | ldVxK | ldINnn | addIVx | ldVxKk | addVxKk | ldVxVy | orVxVy | andVxVy | xorVxVy | rndVxKk | addVxVy
  | subVxVy | shrVx | subnVxVy | shlVx =>
    cases h
    exact .inl ⟨fun _ _ => rfl, rfl⟩

/-- The next cycle of a running machine executes CLS or DRW. -/
def State.aboutToWriteDisplay (s : State) : Prop :=
  s.aboutToRun .cls ∨ ∃ x y d, s.aboutToRun (.drwVxVyD x y d)

theorem aboutToWriteDisplay_of_aboutToRun {i : Instr} {s : State} (hi : writesDisplay i) (h : s.aboutToRun i) :
    s.aboutToWriteDisplay := by
  rcases hi with rfl | ⟨x, y, d, rfl⟩
  · exact .inl h
  · exact .inr ⟨x, y, d, h⟩

theorem cycle_display_cases {r : Byte} {s t : State} (h : cycle r s = .next t) :
    SameDisplay s t ∨ t.dirty = true ∧ s.aboutToWriteDisplay := by
  by_cases hst : s.status = .running
  · rcases cycle_cases hst h with ⟨-, rfl⟩ | ⟨-, rfl⟩ | ⟨-, -, rfl⟩ | ⟨i, u, hrun, hexec, rfl⟩
    · exact .inl ⟨fun _ _ => rfl, rfl⟩
    · exact .inl ⟨fun _ _ => rfl, rfl⟩
    · exact .inl ⟨fun _ _ => rfl, rfl⟩
    · rcases exec_display_cases hexec with hsame | ⟨hi, hdirty⟩
      · exact .inl hsame
      · exact .inr ⟨hdirty, aboutToWriteDisplay_of_aboutToRun hi hrun⟩
  · rw [cycle_not_running r hst] at h
    cases h
    exact .inl ⟨fun _ _ => rfl, rfl⟩

theorem keyDown_sameDisplay (k : Index) (s : State) : SameDisplay s (keyDown k s) := by
  rcases keyDown_cases k s with ⟨y, -, heq⟩ | ⟨-, heq⟩ <;> simp [SameDisplay, heq]

theorem stop_sameDisplay (s : State) : SameDisplay s (stop s) := by
  rcases stop_cases s with ⟨-, heq⟩ | ⟨-, heq⟩ <;> simp [SameDisplay, heq]

/-- A transaction keeps the display and its dirty flag, or is `clear_dirty`, or is a cycle that runs one of the two
instructions and leaves it dirty. -/
theorem transact_display_cases {x : Transaction} {s t : State} (h : transact x s = .next t) :
    SameDisplay s t ∨ (x = .clearDirty ∧ t = clearDirty s) ∨
      ((∃ r, x = .cycle r) ∧ t.dirty = true ∧ s.aboutToWriteDisplay) := by
  cases x with
  | cycle r => exact (cycle_display_cases h).imp_right fun hdraw => .inr ⟨⟨r, rfl⟩, hdraw⟩
  | keyDown k => cases h; exact .inl (keyDown_sameDisplay k s)
  | stop => cases h; exact .inl (stop_sameDisplay s)
  | clearDirty => cases h; exact .inr (.inl ⟨rfl, rfl⟩)
  | readReg _ | snapshot | readStatus => cases h; exact .inl ⟨fun _ _ => rfl, rfl⟩

/-- Settles O37: the flag changes only where `exec_display_cases` and `transact_display_cases` do not keep it. -/
theorem dirtyIsSetByDisplayInstructions : Obligations.DirtyIsSetByDisplayInstructions := by
  refine ⟨fun s t h => ?_, fun x y d s t h ht => ?_, fun i s t h _ hne => ?_, fun x s t h _ hne => ?_,
    fun s => ⟨clearDirty s, rfl, rfl⟩⟩
  · cases h
    rfl
  · obtain ⟨b, rfl, -⟩ := exec_drwVxVyD_unfaulted rfl rfl h ht
    rfl
  · rcases exec_display_cases h with ⟨-, hsame⟩ | ⟨hi, -⟩
    · exact absurd hsame hne
    · exact hi
  · rcases transact_display_cases h with ⟨-, hsame⟩ | ⟨hx, rfl⟩ | hdraw
    · exact absurd hsame hne
    · exact .inl ⟨hx, rfl⟩
    · exact .inr hdraw

/-- Settles O38: a kept display is kept cell by cell, and `clear_dirty` keeps the display whole. -/
theorem displayChangesOnlyByClsAndDrw : Obligations.DisplayChangesOnlyByClsAndDrw := by
  refine ⟨fun i s t h _ hne => ?_, fun x s t h _ hne => ?_⟩
  · rcases exec_display_cases h with ⟨hsame, -⟩ | ⟨hi, -⟩
    · exact absurd (display_ext hsame) hne
    · exact hi
  · rcases transact_display_cases h with ⟨hsame, -⟩ | ⟨-, rfl⟩ | ⟨hcycle, -, hdraw⟩
    · exact absurd (display_ext hsame) hne
    · exact absurd rfl hne
    · exact ⟨hcycle, hdraw⟩

end Sys2Proof.Machine
end

section
/-! The key-wait family (45_input.md): entering the wait, the key that ends it, and the run status over every
transaction. -/

namespace Sys2Proof.Machine

/-! ### Entering the wait (R200) -/

theorem exec_ldVxK (x : Index) (s : State) : exec (.ldVxK x) s = .next (s.withStatus (.waitingForKey x)) := rfl

/-- Settles O39: the word is class F with `kk` 0x0A, and the instruction is one update of the status. -/
theorem keyWaitEntersWaiting : Obligations.KeyWaitEntersWaiting := by
  refine fun x s => ⟨?_, exec_ldVxK x s⟩
  have hword : (encode (.ldVxK x)).toNat = 0xF * 4096 + x.val * 256 + 0x0A := encodeXkk_toNat 0xF#4 x 0x0A#8
  unfold EncodesAs
  omega

/-! ### A key (R202, R203) -/

theorem transact_keyDown_waiting {s : State} {y : Index} (k : Index) (h : s.status = .waitingForKey y) :
    transact (.keyDown k) s = .next ((s.setV y (keyByte k)).withStatus .running) := by
  simp only [transact, keyDown, h]

theorem transact_keyDown_not_waiting {s : State} (k : Index) (h : ∀ y, s.status ≠ .waitingForKey y) :
    transact (.keyDown k) s = .next s := by
  rcases keyDown_cases k s with ⟨y, hy, -⟩ | ⟨-, heq⟩
  · exact absurd hy (h y)
  · exact congrArg _ heq

/-- Settles O40: but for the status, a key that ends a wait is one register write. -/
theorem keyDownWritesTheTarget : Obligations.KeyDownWritesTheTarget := by
  refine fun k s => ⟨fun y hy => ?_, transact_keyDown_not_waiting k⟩
  exact ⟨_, transact_keyDown_waiting k hy, rfl, fun j => s.getV_setV y j (keyByte k),
    sameButRegisters_setV s y (keyByte k)⟩

/-! ### The wait from end to end (R201; 40_cycle.md R104) -/

theorem transactAll_cons {x : Transaction} {s t : State} (xs : List Transaction) (h : transact x s = .next t) :
    transactAll (x :: xs) s = transactAll xs t := by
  simp only [transactAll, h]

/-- Cycles at the head of a sequence of transactions pass a waiting machine by. -/
theorem transactAll_cycles_waiting {s : State} {y : Index} (h : s.status = .waitingForKey y) (rs : List Byte)
    (xs : List Transaction) : transactAll (rs.map .cycle ++ xs) s = transactAll xs s := by
  induction rs with
  | nil => rfl
  | cons r rs ih => exact (transactAll_cons (x := .cycle r) _ (cycle_waiting h r)).trans ih

/-- Settles O41: the cycle that runs `Fx0A` leaves the advanced `pc`, which neither the cycles of the wait nor the key
write. -/
theorem keyWaitResumesAfterTheInstruction : Obligations.KeyWaitResumesAfterTheInstruction := by
  intro r x s hrun
  have hcycle := cycle_aboutToRun r hrun
  rw [exec_ldVxK, onNext_next] at hcycle
  refine ⟨_, hcycle, rfl, rfl, fun _ => rfl, fun rs k => ?_⟩
  rw [transactAll_cycles_waiting rfl, transactAll_cons [] (transact_keyDown_waiting k rfl)]
  exact ⟨_, rfl, rfl, rfl, State.getV_setV_same _ x (keyByte k)⟩

/-! ### The run status over every transaction (R201; 10_state.md R35) -/

/-- A cycle of a running machine leaves it running, executes one of the two instructions that write the status, or
faults. -/
theorem cycle_status_cases {r : Byte} {s t : State} (hst : s.status = .running) (h : cycle r s = .next t) :
    t.status = .running ∨ (s.aboutToRun .halt ∧ t.status = .halted s.params.haltMode) ∨
      (∃ y, s.aboutToRun (.ldVxK y) ∧ t.status = .waitingForKey y) ∨ ∃ record, t.status = .faulted record := by
  rcases cycle_cases hst h with ⟨-, rfl⟩ | ⟨-, rfl⟩ | ⟨-, -, rfl⟩ | ⟨i, u, hrun, hexec, rfl⟩
  · exact .inr (.inr (.inr ⟨_, rfl⟩))
  · exact .inr (.inr (.inr ⟨_, rfl⟩))
  · exact .inr (.inr (.inr ⟨_, rfl⟩))
  · rcases exec_effect i _ u hexec with ⟨k, rfl⟩ | e
    · exact .inr (.inr (.inr ⟨_, rfl⟩))
    · rcases e.status with hkept | ⟨rfl, hhalt⟩ | ⟨y, rfl, hwait⟩
      · exact .inl (hkept.trans hst)
      · exact .inr (.inl ⟨hrun, hhalt⟩)
      · exact .inr (.inr (.inl ⟨y, hrun, hwait⟩))

theorem transact_stop_live {s : State} (h : s.status.live = true) :
    transact .stop s = .next (s.withStatus .stopped) := by
  rcases stop_cases s with ⟨-, heq⟩ | ⟨hended, -⟩
  · exact congrArg _ heq
  · simp [h] at hended

section Allowed

variable {x : Transaction} {s t : State}

theorem allowedTransition_of_running (hst : s.status = .running) (h : transact x s = .next t) :
    AllowedTransition x s t := by
  simp only [AllowedTransition, hst]
  cases x with
  | cycle r =>
    rcases cycle_status_cases hst h with hkept | ⟨⟨-, -, hword⟩, hhalt⟩ | ⟨y, ⟨-, -, hword⟩, hwait⟩ | hfault
    · exact .inl hkept
    · exact .inr (.inr ⟨⟨r, rfl⟩, .inl ⟨hword, hhalt⟩⟩)
    · exact .inr (.inr ⟨⟨r, rfl⟩, .inr (.inl ⟨y, hword, hwait⟩)⟩)
    · exact .inr (.inr ⟨⟨r, rfl⟩, .inr (.inr hfault)⟩)
  | keyDown k =>
    cases (transact_keyDown_not_waiting k (by simp [hst])).symm.trans h
    exact .inl hst
  | stop =>
    cases (transact_stop_live (by rw [hst]; rfl)).symm.trans h
    exact .inr (.inl ⟨rfl, rfl⟩)
  | readReg _ | snapshot | clearDirty | readStatus =>
    cases h
    exact .inl hst

theorem allowedTransition_of_waiting {y : Index} (hst : s.status = .waitingForKey y) (h : transact x s = .next t) :
    AllowedTransition x s t := by
  simp only [AllowedTransition, hst]
  cases x with
  | cycle r =>
    cases (cycle_waiting hst r).symm.trans h
    exact .inr (.inr ⟨nofun, nofun, hst⟩)
  | keyDown k =>
    cases (transact_keyDown_waiting k hst).symm.trans h
    exact .inr (.inl ⟨⟨k, rfl⟩, rfl⟩)
  | stop =>
    cases (transact_stop_live (by rw [hst]; rfl)).symm.trans h
    exact .inl ⟨rfl, rfl⟩
  | readReg _ | snapshot | clearDirty | readStatus =>
    cases h
    exact .inr (.inr ⟨nofun, nofun, hst⟩)

/-- No transaction leaves the status of an ended run. -/
theorem status_of_ended (hended : s.status.live = false) (h : transact x s = .next t) : t.status = s.status := by
  have ⟨hkeeps, _⟩ := endedRunStaysEnded s hended
  obtain ⟨u, hu, hstatus⟩ := hkeeps x
  cases hu.symm.trans h
  exact hstatus

end Allowed

/-- Settles O42: a running machine changes its status by a cycle or a stop, a waiting one by a key or a stop, and an
ended one not at all. -/
theorem statusFollowsTheWaitMachine : Obligations.StatusFollowsTheWaitMachine := by
  intro x s t h
  cases hst : s.status with
  | running => exact allowedTransition_of_running hst h
  | waitingForKey y => exact allowedTransition_of_waiting hst h
  | halted _ | stopped | faulted _ =>
    simp only [AllowedTransition, hst]
    exact (status_of_ended (by rw [hst]; rfl) h).trans hst

end Sys2Proof.Machine
end

section
/-! The fault family (60_exceptions.md): every step answers a next state, which kinds an instruction raises, what a
cycle's fault record holds, and `stop`. -/

namespace Sys2Proof.Machine

/-! ### `stop` (R232) -/

/-- Settles O46: a live machine takes one update of the status, and an ended one is left as it is. -/
theorem stopEndsALiveRun : Obligations.StopEndsALiveRun :=
  fun _ => ⟨transact_stop_live, fun hended => congrArg _ (stop_ended hended)⟩

/-! ### Every step answers a next state (R223; 40_cycle.md R100, R103) -/

theorem exec_next (i : Instr) (s : State) : ∃ t, exec i s = .next t := by
  cases i with
  | ret | jpNnn | callNnn | seVxKk | sneVxKk | seVxVy | sneVxVy | jpV0Nnn => exact attempt_next s _
  | drwVxVyD | ldFVx | ldBVx | ldMemVx | ldVxMem => exact attempt_next s _
  | halt | cls | ldVxK | ldINnn | addIVx => exact ⟨_, rfl⟩
  | ldVxKk | addVxKk | ldVxVy | orVxVy | andVxVy | xorVxVy | rndVxKk => exact ⟨_, rfl⟩
  | addVxVy | subVxVy | shrVx | subnVxVy | shlVx => exact ⟨_, rfl⟩

theorem cycle_next (r : Byte) (s : State) : ∃ t, cycle r s = .next t := by
  by_cases hst : s.status = .running
  · have hpc : 4095 ≤ s.pc ∨ (s.pc = 4093 ∨ s.pc = 4094) ∨ s.pc + 2 < 4095 := by omega
    rcases hpc with hfetch | hadv | hlegal
    · exact ⟨_, cycle_fetch_fault r hst hfetch⟩
    · exact ⟨_, cycle_advance_fault r hst hadv⟩
    · rcases decodeWord_cases (s.wordAt s.pc) with ⟨i, hi⟩ | hnone
      · obtain ⟨u, hexec⟩ := exec_next i (s.inExecute r)
        exact ⟨u.endCycle, by rw [cycle_aboutToRun r ⟨hst, hlegal, hi⟩, hexec, onNext_next]⟩
      · exact ⟨_, cycle_unimplemented r hst hlegal ((decodeWord_error_iff _).1 hnone)⟩
  · exact ⟨s, cycle_not_running r hst⟩

theorem transact_next (x : Transaction) (s : State) : ∃ t, transact x s = .next t := by
  cases x with
  | cycle r => exact cycle_next r s
  | keyDown _ | stop | readReg _ | snapshot | clearDirty | readStatus => exact ⟨_, rfl⟩

/-- Settles O10: an instruction's arm updates the state or goes through `attempt`, and a cycle ends in a fault state or
in its instruction's answer. -/
theorem everyStepAnswersNext : Obligations.EveryStepAnswersNext :=
  ⟨exec_next, cycle_next, fun s => cycle_next _ s, transact_next⟩

/-! ### Pseudocode that raises only some kinds (R221) -/

/-- Pseudocode run from `s` ends in a state with the status of `s`, or at a `raise` of one of `kinds`. -/
def RaisesOnly (kinds : List Fault) (s : State) : Except Fault State → Prop
  | .ok u    => u.status = s.status
  | .error k => k ∈ kinds

section RaisesOnly

variable {kinds : List Fault} {s u : State}

theorem raisesOnly_setPc (n : Nat) (hu : u.status = s.status) (hk : .illegalJumpTarget ∈ kinds) :
    RaisesOnly kinds s (setPc n u) := by
  unfold setPc
  split
  · exact hk
  · exact hu

theorem raisesOnly_skipIf (b : Bool) (hk : .illegalJumpTarget ∈ kinds) : RaisesOnly kinds s (skipIf b s) := by
  cases b with
  | false => exact rfl
  | true => exact raisesOnly_setPc _ rfl hk

theorem raisesOnly_memWrite (a : Nat) (bs : List Byte) (hk : .memoryOutOfBounds ∈ kinds) :
    RaisesOnly kinds s (memWrite a bs s) := by
  unfold memWrite
  split
  · exact rfl
  · exact hk

/-- A step in front of the rest: its own kinds, then those of the rest from each of its answers. -/
theorem raisesOnly_bind {α : Type} {x : Except Fault α} {f : α → Except Fault State}
    (hx : ∀ k, x = .error k → k ∈ kinds) (hf : ∀ a, x = .ok a → RaisesOnly kinds s (f a)) :
    RaisesOnly kinds s (x >>= f) := by
  cases x with
  | ok a => exact hf a rfl
  | error k => exact hx k rfl

theorem attempt_raisesOnly {t : State} {body : Except Fault State} (hbody : RaisesOnly kinds s body)
    (hs : s.isFaulted = false) (h : attempt s body = .next t) : t.isFaulted = false ∨ ∃ k ∈ kinds, t = s.raise k := by
  rcases attempt_cases h with rfl | ⟨k, rfl, rfl⟩
  · have hstatus : t.status = s.status := hbody
    exact .inl (by simpa only [State.isFaulted, hstatus] using hs)
  · exact .inr ⟨k, hbody, rfl⟩

end RaisesOnly

theorem push_eq_error {v : Nat} {s : State} {k : Fault} (h : push v s = .error k) : k = .stackOverflow := by
  by_cases hroom : s.SP.val < 16
  · rw [push_room v hroom] at h
    cases h
  · rw [push_full v hroom] at h
    cases h
    rfl

theorem pop_eq_error {s : State} {k : Fault} (h : pop s = .error k) : k = .stackUnderflow := by
  by_cases hz : s.SP.val = 0
  · rw [pop_empty hz] at h
    cases h
    rfl
  · rw [pop_some hz] at h
    cases h

theorem memRead_eq_error {a n : Nat} {s : State} {k : Fault} (h : memRead a n s = .error k) :
    k = .memoryOutOfBounds := by
  rw [memRead_eq] at h
  split at h <;> cases h
  rfl

/-! ### What an instruction raises (R221) -/

/-- An instruction executed in an unfaulted state leaves one, or takes a fault its row of R221 lists. The walks of the
block transfers stay inside the register file, so their index assertions raise nothing (R222). -/
theorem exec_listed_fault {i : Instr} {s t : State} (hs : s.isFaulted = false) (h : exec i s = .next t) :
    t.isFaulted = false ∨ ∃ k ∈ faultKinds i, t = s.raise k := by
  have raises {body : Except Fault State} (hbody : RaisesOnly (faultKinds i) s body)
      (h : attempt s body = .next t) := attempt_raisesOnly hbody hs h
  cases i with
  | halt | ldVxK => cases h; exact .inl rfl
  | cls | ldINnn | addIVx | ldVxKk | addVxKk | ldVxVy | orVxVy | andVxVy | xorVxVy | rndVxKk | addVxVy | subVxVy | shrVx
  | subnVxVy | shlVx => cases h; exact .inl hs
  | jpNnn | jpV0Nnn => exact raises (raisesOnly_setPc _ rfl (by simp [faultKinds])) h
  | seVxKk | sneVxKk | seVxVy | sneVxVy => exact raises (raisesOnly_skipIf _ (by simp [faultKinds])) h
  | ret =>
    refine raises (raisesOnly_bind (fun k hk => ?_) fun ⟨v, u⟩ hpop => ?_) h
    · simp [pop_eq_error hk, faultKinds]
    · obtain ⟨sp, rfl⟩ := pop_eq_ok hpop
      exact raisesOnly_setPc v rfl (by simp [faultKinds])
  | callNnn nnn =>
    refine raises (raisesOnly_bind (fun k hk => ?_) fun u hpush => ?_) h
    · simp [push_eq_error hk, faultKinds]
    · obtain ⟨slots, sp, rfl⟩ := push_eq_ok hpush
      exact raisesOnly_setPc _ rfl (by simp [faultKinds])
  | ldFVx x =>
    refine raises ?_ h
    split
    · exact List.mem_singleton_self _
    · exact rfl
  | ldBVx x => exact raises (raisesOnly_memWrite _ _ (by simp [faultKinds])) h
  | ldMemVx x =>
    obtain ⟨bs, hread, -⟩ := readRegs_ok s (k := 0) (n := x.val + 1) (by omega)
    simp only [exec, execLdMemVx, hread, bind_ok] at h
    exact raises (raisesOnly_memWrite _ bs (by simp [faultKinds])) h
  | ldVxMem x =>
    refine raises (raisesOnly_bind (fun k hk => ?_) fun bs hread => ?_) h
    · simp [memRead_eq_error hk, faultKinds]
    · have hlen : bs.length = x.val + 1 := by rw [memRead_eq_ok hread, bytesAt_length]
      obtain ⟨V, hwrite, -⟩ := writeRegs_ok (k := 0) (bs := bs) s (by omega)
      rw [hwrite]
      exact rfl
  | drwVxVyD x y d =>
    refine raises (raisesOnly_bind (fun k hk => ?_) fun rows _ => ?_) h
    · simp [memRead_eq_error hk, faultKinds]
    · exact rfl

theorem isFaulted_of_status {s : State} {record : FaultRecord} (h : s.status = .faulted record) :
    s.isFaulted = true := by
  rw [State.isFaulted, h]

/-- The record is that of the cycle in progress, with a listed kind. -/
theorem exec_faultRecord {i : Instr} {s t : State} {record : FaultRecord} (hs : s.isFaulted = false)
    (h : exec i s = .next t) (ht : t.status = .faulted record) : ∃ k ∈ faultKinds i, record = s.faultRecord k := by
  rcases exec_listed_fault hs h with hunfaulted | ⟨k, hk, rfl⟩
  · simp [isFaulted_of_status ht] at hunfaulted
  · exact ⟨k, hk, (Status.faulted.inj ht).symm⟩

/-- Settles O44: the record's kind is the one raised. -/
theorem instructionsRaiseOnlyListedFaults : Obligations.InstructionsRaiseOnlyListedFaults := by
  intro i s t record hs h ht
  obtain ⟨k, hk, rfl⟩ := exec_faultRecord hs h ht
  exact hk

/-! ### The record of a faulting cycle (R223, R224; 92_eei_decisions.md D14, D30) -/

/-- A faulting cycle faults at its fetch, with no word, or later with the word at `pc`: at its advance, on a word that
is no instruction, or in its instruction with a kind listed for that one. -/
theorem cycle_fault_cases {r : Byte} {s t : State} {record : FaultRecord} (hst : s.status = .running)
    (h : cycle r s = .next t) (ht : t.status = .faulted record) :
    (4095 ≤ s.pc ∧ record = { kind := .memoryOutOfBounds, pc := s.pc, opcode := none }) ∨
    s.pc ≤ 4094 ∧ ∃ k, record = { kind := k, pc := s.pc, opcode := some (s.wordAt s.pc) } ∧
      (k = .illegalJumpTarget ∨ k = .unimplementedOpcode ∨ ∃ i, s.aboutToRun i ∧ k ∈ faultKinds i) := by
  rcases cycle_cases hst h with ⟨hpc, rfl⟩ | ⟨hpc, rfl⟩ | ⟨hadv, -, rfl⟩ | ⟨i, u, hrun, hexec, rfl⟩
  · exact .inl ⟨hpc, (Status.faulted.inj ht).symm⟩
  · exact .inr ⟨by omega, _, (Status.faulted.inj ht).symm, .inl rfl⟩
  · exact .inr ⟨by omega, _, (Status.faulted.inj ht).symm, .inr (.inl rfl)⟩
  · have ⟨_, hadv, _⟩ := hrun
    have hs : (s.inExecute r).isFaulted = false := by simp [State.isFaulted, hst]
    obtain ⟨k, hk, hrecord⟩ := exec_faultRecord hs hexec ht
    exact .inr ⟨by omega, k, hrecord, .inr (.inr ⟨i, hrun, hk⟩)⟩

/-- Settles O43: only the fetch fault's record lacks the word. -/
theorem faultRecordNamesTheInstruction : Obligations.FaultRecordNamesTheInstruction := by
  intro r s t record hst h ht
  rcases cycle_fault_cases hst h ht with ⟨hpc, rfl⟩ | ⟨hpc, k, rfl, -⟩
  · exact ⟨rfl, fun _ => by omega, fun _ => ⟨rfl, rfl⟩⟩
  · exact ⟨rfl, fun _ => rfl, fun _ => by omega⟩

/-! ### The kind that is never raised (R222; 10_state.md R22) -/

theorem registerIndexOutOfRange_not_listed (i : Instr) : .registerIndexOutOfRange ∉ faultKinds i := by
  cases i <;> simp [faultKinds]

/-- By the transitions of R201, only a cycle of a running machine takes an unfaulted one to a fault. -/
theorem running_cycle_of_fault {x : Transaction} {s t : State} {record : FaultRecord} (hs : s.isFaulted = false)
    (h : transact x s = .next t) (ht : t.status = .faulted record) : s.status = .running ∧ ∃ r, x = .cycle r := by
  have hallowed := statusFollowsTheWaitMachine x s t h
  cases hst : s.status with
  | running =>
    simp only [AllowedTransition, hst, ht, reduceCtorEq, and_false, false_or] at hallowed
    exact ⟨rfl, hallowed.1⟩
  | faulted record' => simp [isFaulted_of_status hst] at hs
  | waitingForKey _ | halted _ | stopped => simp [AllowedTransition, hst, ht] at hallowed

/-- Settles O45: a transaction that faults is a cycle, and neither the cycle's own faults nor a listed one has this
kind. -/
theorem registerIndexFaultIsNeverRaised : Obligations.RegisterIndexFaultIsNeverRaised := by
  intro x s t record hs h ht
  obtain ⟨hst, r, rfl⟩ := running_cycle_of_fault hs h ht
  rcases cycle_fault_cases hst h ht with ⟨-, rfl⟩ | ⟨-, k, rfl, rfl | rfl | ⟨i, -, hk⟩⟩
  · exact nofun
  · exact nofun
  · exact nofun
  · exact fun hkind => registerIndexOutOfRange_not_listed i (hkind ▸ hk)

end Sys2Proof.Machine
end

section
/-! The reset family (70_reset_and_hazards.md): what construction lays out, the reset state, and the parameters, which no
transaction changes. -/

namespace Sys2Proof.Machine

/-! ### What an unlisted address reads as (R251; the spec's decision D6) -/

theorem resetByte_font (p : Params) (k : Fin 80) : resetByte p (p.fontBase + k.val) = p.fontData[k.val] := by
  have hk : p.fontBase ≤ p.fontBase + k.val ∧ p.fontBase + k.val < p.fontBase + 80 := by omega
  simp only [resetByte, dif_pos hk, Nat.add_sub_cancel_left]

theorem resetByte_not_font {p : Params} {a : Nat} (h : a < p.fontBase ∨ p.fontBase + 80 ≤ a) : resetByte p a = 0#8 :=
  dif_neg (by omega)

/-! ### The initial state (R252 to R256; the spec's decisions D5, D6) -/

@[simp] theorem initial_getV (p : Params) (j : Index) : (State.initial p).getV j = 0#8 :=
  Vector.getElem_replicate _

@[simp] theorem initial_slot (p : Params) (j : Fin 16) : (State.initial p).S[j.val] = 0 :=
  Vector.getElem_replicate _

@[simp] theorem initial_cellAt (p : Params) (r : Fin 32) (q : Fin 64) : cellAt (State.initial p).D r q = false :=
  cellAt_allOff r q

@[simp] theorem initial_byteAt (p : Params) (a : Nat) : (State.initial p).byteAt a = resetByte p a :=
  Memory.read_nil a

/-! ### Construction (R250, R257; the spec's decision D24) -/

section Construct

variable {image : List Byte} {p : Params}

theorem construct_fits (hp : p.wellFormed = true) (hfit : p.programBase + image.length ≤ 4096) :
    construct image p = some ((State.initial p).withMem (Memory.writeList p [] p.programBase image)) :=
  if_pos (Bool.and_eq_true_iff.2 ⟨hp, (params_imageFits_iff p image).2 hfit⟩)

theorem construct_too_long (hlong : 4096 < p.programBase + image.length) : construct image p = none := by
  have hfits : ¬ p.imageFits image = true := fun h => absurd ((params_imageFits_iff p image).1 h) (by omega)
  exact if_neg fun h => hfits (Bool.and_eq_true_iff.1 h).2

end Construct

/-- Settles O49: the image is a list stored into the initial state, whose font, inside the reserved area, it does not
reach. -/
theorem constructLaysOutMemory : Obligations.ConstructLaysOutMemory := by
  intro image p hp
  refine ⟨fun hfit => ⟨_, construct_fits hp hfit, rfl, rfl, rfl, rfl, initial_slot p, initial_getV p, rfl,
    initial_cellAt p, rfl, fun k hk => ?image, fun k => ?font, fun a hprog hfont => ?zero⟩, construct_too_long⟩
  case image => exact byteAt_stored (s := State.initial p) Memory.wf_nil hfit hk
  case font =>
    have ⟨hbase, _, hreserved⟩ := (params_wellFormed_iff p).1 hp
    have hbelow : p.fontBase + k.val < p.programBase := by omega
    exact (byteAt_not_stored (s := State.initial p) Memory.wf_nil hfit (.inl hbelow)).trans (resetByte_font p k)
  case zero =>
    exact (byteAt_not_stored (s := State.initial p) Memory.wf_nil hfit hprog).trans (resetByte_not_font hfont)

/-- Settles O50: reset is the initial state of the default parameters, into which an empty image stores nothing; the
font bytes are read off the default font. -/
theorem resetStateIsTheSpecs : Obligations.ResetStateIsTheSpecs := by
  have hconstruct : construct [] Config.defaults = some State.reset := construct_fits (by decide) (by decide)
  have hzero : ∀ a, 0x050 ≤ a → State.reset.byteAt a = 0#8 := fun a ha =>
    (initial_byteAt Config.defaults a).trans (resetByte_not_font (.inr ha))
  exact ⟨hconstruct, rfl, rfl, rfl, initial_getV _, rfl, initial_slot _, initial_cellAt _, rfl, by decide, by decide,
    hzero _ (by decide), hzero _ (by decide)⟩

/-! ### The parameters are constant (R250; 00_scope.md R7 to R10) -/

theorem cycle_params {r : Byte} {s t : State} (h : cycle r s = .next t) : t.params = s.params := by
  by_cases hst : s.status = .running
  · rcases cycle_cases hst h with ⟨-, rfl⟩ | ⟨-, rfl⟩ | ⟨-, -, rfl⟩ | ⟨i, u, -, hexec, rfl⟩
    · rfl
    · rfl
    · rfl
    · rcases exec_effect i _ u hexec with ⟨k, rfl⟩ | e
      · rfl
      · exact e.params
  · rw [cycle_not_running r hst] at h
    cases h
    rfl

@[simp] theorem keyDown_params (k : Index) (s : State) : (keyDown k s).params = s.params := by
  rcases keyDown_cases k s with ⟨y, -, heq⟩ | ⟨-, heq⟩ <;> simp [heq]

@[simp] theorem stop_params (s : State) : (stop s).params = s.params := by
  rcases stop_cases s with ⟨-, heq⟩ | ⟨-, heq⟩ <;> simp [heq]

theorem transact_params {x : Transaction} {s t : State} (h : transact x s = .next t) : t.params = s.params := by
  cases x with
  | cycle r => exact cycle_params h
  | keyDown k => cases h; exact keyDown_params k s
  | stop => cases h; exact stop_params s
  | readReg _ | snapshot | clearDirty | readStatus => cases h; rfl

/-- Settles O54: a cycle keeps the parameters however it ends, and a step is a cycle. -/
theorem parametersNeverChange : Obligations.ParametersNeverChange :=
  ⟨fun _ _ _ h => transact_params h, fun _ _ h => cycle_params h⟩

end Sys2Proof.Machine
end
